-- ==== Sys2Proof/Word.lean ====
section
/-! DEFINITION. Word.lean: the word types of the GCDF unit (spec R5, R8, R24, R47). -/

namespace Sys2Proof

/-- A work register's contents: a 256-bit string, bit 255 the most significant (R5, R9). -/
abbrev Word := BitVec 256

/-- A command word: the 32 bits one `Issue` transaction carries (R8, R60). -/
abbrev CommandWord := BitVec 32

/-- A status code: the 8 bits of `STATUS.CODE` (R24). -/
abbrev Code := BitVec 8

/-- A byte of a serialised word or command (R47). -/
abbrev Byte := BitVec 8

end Sys2Proof
end

