-- ==== Sys2Proof/Syntax.lean ====
section
/-! DEFINITION. Syntax.lean: the eight commands of the unit (spec R67), one constructor per row of
spec/opcode_table.json. -/

namespace Sys2Proof

/-- The index of a work register, `w0` to `w7` (R21, R62): every value is legal in a field a command uses. -/
abbrev Reg := Fin 8

/-- The commands of the unit (R67). A constructor holds the register fields its command uses, destination first,
then the sources in the order of the function's arguments; a field it does not hold is `000` in the command word
(R62). There are no immediates (R63). -/
inductive Instr where
  /-- `MULWAD rd, ra, rb`: checked multiply and rescale (R84). -/
  | mulwad (rd ra rb : Reg)
  /-- `DIVWAD rd, ra, rb`: checked divide and rescale (R86). -/
  | divwad (rd ra rb : Reg)
  /-- `MULDIV rd, ra, rb, rc`: checked multiply and divide by a register (R88). -/
  | muldiv (rd ra rb rc : Reg)
  /-- `ABS rd, ra`: absolute value (R91). -/
  | abs (rd ra : Reg)
  /-- `EXPW rd, ra`: fixed-point exponential (R105). -/
  | expw (rd ra : Reg)
  /-- `POLY rd, ra`: the exponent polynomial (R114). -/
  | poly (rd ra : Reg)
  /-- `ERFC rd, ra`: complementary error function (R121). -/
  | erfc (rd ra : Reg)
  /-- `CDF rd, ra, rb, rc`: Gaussian cumulative distribution function of x, mu, sigma (R137). -/
  | cdf (rd ra rb rc : Reg)
deriving DecidableEq, Repr

/-- The destination register of a command (R61). -/
def Instr.dest : Instr → Reg
  | .mulwad rd _ _ => rd
  | .divwad rd _ _ => rd
  | .muldiv rd _ _ _ => rd
  | .abs rd _ => rd
  | .expw rd _ => rd
  | .poly rd _ => rd
  | .erfc rd _ => rd
  | .cdf rd _ _ _ => rd

/-- The source registers of a command, in the order of its function's arguments (R67). -/
def Instr.sources : Instr → List Reg
  | .mulwad _ ra rb => [ra, rb]
  | .divwad _ ra rb => [ra, rb]
  | .muldiv _ ra rb rc => [ra, rb, rc]
  | .abs _ ra => [ra]
  | .expw _ ra => [ra]
  | .poly _ ra => [ra]
  | .erfc _ ra => [ra]
  | .cdf _ ra rb rc => [ra, rb, rc]

end Sys2Proof
end

