-- ==== Sys2Proof/WellFormed.lean ====
section
/-! DEFINITION. WellFormed.lean: when the fields of a 32-bit word make a command (spec R61, R62, R66). An `Instr`
needs no check of its own: its register fields are `Fin 8`, and all eight values are legal (R62). What can be ill
formed is the word, so the check is on a word split into the fields of format `R4`. It is written from R62 and R66,
and the decoder (Decode.lean) from the masks of R64 and R67. -/

namespace Sys2Proof

/-- A command word split into the fields of format `R4` (R61). -/
structure R4 where
  /-- Bits 31:24. -/
  opcode : BitVec 8
  /-- Bits 23:21. -/
  rd : BitVec 3
  /-- Bits 20:18. -/
  ra : BitVec 3
  /-- Bits 17:15; must be 0 in commands with one source. -/
  rb : BitVec 3
  /-- Bits 14:12; must be 0 in commands with fewer than three sources. -/
  rc : BitVec 3
  /-- Bits 11:0; must be 0. -/
  zero : BitVec 12
deriving DecidableEq, Repr

namespace R4

/-- R66: the opcode is one of the eight, `0x01` to `0x08`. -/
def opcodeOk (f : R4) : Bool := 0x01#8 ≤ f.opcode && f.opcode ≤ 0x08#8

/-- R66: bits 11:0 are zero. -/
def zeroOk (f : R4) : Bool := f.zero == 0#12

/-- How many sources the command of an opcode has (R67); 0 for an opcode of no command. -/
def sourceCount (f : R4) : Nat :=
  if f.opcode = 0x01#8 ∨ f.opcode = 0x02#8 then 2
  else if f.opcode = 0x03#8 ∨ f.opcode = 0x08#8 then 3
  else if 0x04#8 ≤ f.opcode ∧ f.opcode ≤ 0x07#8 then 1
  else 0

/-- R61, R66: `rb` is zero in a command with one source. -/
def rbOk (f : R4) : Bool := f.sourceCount != 1 || f.rb == 0#3

/-- R61, R66: `rc` is zero in a command with fewer than three sources. -/
def rcOk (f : R4) : Bool := f.sourceCount == 3 || f.rc == 0#3

/-- A word is a command exactly when its fields pass the four checks of R66. -/
def wellFormed (f : R4) : Bool := f.opcodeOk && f.zeroOk && f.rbOk && f.rcOk

end R4

end Sys2Proof
end

