-- ==== Sys2Proof/Decode.lean ====
section
/-! DEFINITION. Decode.lean: the decoder of command words (spec R64, R66, R67), total on any word and any bytes and
rejecting by name, and the encoder (R61, R67, R68). -/

namespace Sys2Proof

/-- Why a word is no command (R66), or why bytes hold no word. All of them are one and the same to the unit: an
issued word that is no command completes with `IllegalCommand` (R155). DESIGN CHOICE, safe (log entry 14): the names. -/
inductive IllegalReason where
  /-- The opcode is `0x00` or `0x09` to `0xFF`. -/
  | noSuchOpcode
  /-- A nonzero bit among bits 11:0. -/
  | zeroFieldSet
  /-- A nonzero bit in `rb` or `rc` of a command that does not use that field. -/
  | unusedFieldSet
  /-- Fewer than the four bytes of a command word. -/
  | truncated
deriving DecidableEq, Repr

/-- What a word decodes to: a command, or no command. -/
inductive Decoded where
  | command (i : Instr)
  | illegal (r : IllegalReason)
deriving DecidableEq, Repr

/-- The command decoded, if there is one. -/
def Decoded.instr? : Decoded → Option Instr
  | .command i => some i
  | .illegal _ => none

/-- The 3-bit register field of a word whose lowest bit is `lo` (R61). -/
def regField (c : CommandWord) (lo : Nat) : Reg := (c.extractLsb' lo 3).toFin

/-- A row of the opcode map (R67). -/
structure OpcodeRow where
  mnemonic : String
  matchBits : CommandWord
  mask : CommandWord
  /-- The command of the four register fields `rd`, `ra`, `rb`, `rc`. -/
  build : Reg → Reg → Reg → Reg → Instr

/-- The opcode map of R67: the columns match and mask of its table. -/
def opcodeTable : List OpcodeRow :=
  [ ⟨"MULWAD", 0x01000000#32, 0xFF007FFF#32, fun rd ra rb _ => .mulwad rd ra rb⟩,
    ⟨"DIVWAD", 0x02000000#32, 0xFF007FFF#32, fun rd ra rb _ => .divwad rd ra rb⟩,
    ⟨"MULDIV", 0x03000000#32, 0xFF000FFF#32, fun rd ra rb rc => .muldiv rd ra rb rc⟩,
    ⟨"ABS", 0x04000000#32, 0xFF03FFFF#32, fun rd ra _ _ => .abs rd ra⟩,
    ⟨"EXPW", 0x05000000#32, 0xFF03FFFF#32, fun rd ra _ _ => .expw rd ra⟩,
    ⟨"POLY", 0x06000000#32, 0xFF03FFFF#32, fun rd ra _ _ => .poly rd ra⟩,
    ⟨"ERFC", 0x07000000#32, 0xFF03FFFF#32, fun rd ra _ _ => .erfc rd ra⟩,
    ⟨"CDF", 0x08000000#32, 0xFF000FFF#32, fun rd ra rb rc => .cdf rd ra rb rc⟩ ]

/-- A word is the command of a row when `(c AND mask) = match` (R64). -/
def OpcodeRow.matches (row : OpcodeRow) (c : CommandWord) : Bool := c &&& row.mask == row.matchBits

/-- The name of the first of R66's conditions that a word which matches no row meets. -/
def illegalReason (c : CommandWord) : IllegalReason :=
  if c.extractLsb' 24 8 = 0x00#8 ∨ 0x09#8 ≤ c.extractLsb' 24 8 then .noSuchOpcode
  else if c.extractLsb' 0 12 ≠ 0#12 then .zeroFieldSet
  else .unusedFieldSet

/-- Decoding a command word (R64): the row it matches, or no command. -/
def decode (c : CommandWord) : Decoded :=
  match opcodeTable.find? (fun row => row.matches c) with
  | some row => .command (row.build (regField c 21) (regField c 18) (regField c 15) (regField c 12))
  | none => .illegal (illegalReason c)

/-! ### Bytes (R47): big-endian everywhere a word or a command is written as bytes -/

/-- The `n` lowest bytes of a number, most significant first. -/
def bytesBE (n v : Nat) : List Byte :=
  (List.range n).reverse.map fun i => BitVec.ofNat 8 (v >>> (8 * i))

/-- The number that bytes stand for, most significant first. -/
def natOfBytesBE (bs : List Byte) : Nat :=
  bs.foldl (fun acc b => acc * 256 + b.toNat) 0

/-- The four bytes of a command word: byte 0 holds bits 31 to 24, the opcode (R47). -/
def bytesOfCommand (c : CommandWord) : List Byte := bytesBE 4 c.toNat

/-- Decode the command word that bytes begin with, and give the bytes after it. -/
def decodeBytes : List Byte → Decoded × List Byte
  | b0 :: b1 :: b2 :: b3 :: rest => (decode (BitVec.ofNat 32 (natOfBytesBE [b0, b1, b2, b3])), rest)
  | bs => (.illegal .truncated, bs)

/-! ### Encoding -/

/-- A word of format `R4` with `zero` = 0 (R61). -/
def r4Word (opcode : BitVec 8) (rd ra rb rc : Reg) : CommandWord :=
  opcode ++ BitVec.ofFin (w := 3) rd ++ BitVec.ofFin (w := 3) ra ++ BitVec.ofFin (w := 3) rb
    ++ BitVec.ofFin (w := 3) rc ++ 0#12

/-- The word of a command (R61, R67): unused register fields are `000` (R62). -/
def encode : Instr → CommandWord
  | .mulwad rd ra rb => r4Word 0x01#8 rd ra rb 0
  | .divwad rd ra rb => r4Word 0x02#8 rd ra rb 0
  | .muldiv rd ra rb rc => r4Word 0x03#8 rd ra rb rc
  | .abs rd ra => r4Word 0x04#8 rd ra 0 0
  | .expw rd ra => r4Word 0x05#8 rd ra 0 0
  | .poly rd ra => r4Word 0x06#8 rd ra 0 0
  | .erfc rd ra => r4Word 0x07#8 rd ra 0 0
  | .cdf rd ra rb rc => r4Word 0x08#8 rd ra rb rc

/-- The fields of a word by format `R4` (R61). -/
def R4.ofWord (c : CommandWord) : R4 where
  opcode := c.extractLsb' 24 8
  rd := c.extractLsb' 21 3
  ra := c.extractLsb' 18 3
  rb := c.extractLsb' 15 3
  rc := c.extractLsb' 12 3
  zero := c.extractLsb' 0 12

/-- The word of the fields of format `R4` (R61). -/
def R4.toWord (f : R4) : CommandWord := f.opcode ++ f.rd ++ f.ra ++ f.rb ++ f.rc ++ f.zero

/-! ### The opcode table's numbering of bits -/

/-- The command word whose bits are `w`, the bits from `nbits` up being zero. A command is one 32-bit word (R60),
so the table's bit numbers are the word's own. -/
def tableWord (nbits w : Nat) : CommandWord := BitVec.ofNat 32 (w % 2 ^ nbits)

/-- What the decoder reads from the bytes of the instruction whose bits are `w`, as spec/opcode_table.json numbers
them. -/
def decodeTableWord (nbits w : Nat) : Option Instr :=
  (decodeBytes (bytesOfCommand (tableWord nbits w))).1.instr?

end Sys2Proof
end

