-- ==== Sys2Proof/Machine/Outcome.lean ====
section
/-! DEFINITION. Machine/Outcome.lean: what a function of the function layer returns (spec R11). -/

namespace Sys2Proof.Machine

/-- The error names (R150). `IllegalCommand` is none of them: no function raises it (R155). -/
inductive FnError where
  /-- `x < -X_BOUND` or `x > X_BOUND`; raised by `F_cdf` (R131). -/
  | xOutOfBounds
  /-- `mu < -MU_BOUND` or `mu > MU_BOUND`; raised by `F_cdf` (R131). -/
  | muOutOfBounds
  /-- `sigma ≤ 0` or `sigma > SIGMA_BOUND`; raised by `F_cdf` (R131). -/
  | sigmaOutOfBounds
  /-- An exact result lies outside [MIN, MAX] (R80), or the exponential reports overflow (R100). -/
  | arithmeticOverflow
  /-- The operand of `F_abs` is MIN (R89). -/
  | minValueUnrepresentable
  /-- The product fits and the divisor is 0; raised by `F_muldiv` (R82). -/
  | divideByZero
deriving DecidableEq, Repr, Inhabited

/-- An outcome: a value in [MIN, MAX] or one named error (R11). Every function is total (R30, R186) but an exponential
that breaks R100 (a), and what calls such a one: there the third constructor stands for the call that never returns
(93_implementation_defined.md U5). -/
inductive FnOutcome where
  | ok (v : Int)
  | err (e : FnError)
  | noReturn
deriving DecidableEq, Repr

/-- `v <- o; f v`: a called function that returns an error ends its caller with the same error (R11), and one that
does not return keeps its caller from returning (U5). -/
def FnOutcome.bind (o : FnOutcome) (f : Int → FnOutcome) : FnOutcome :=
  match o with
  | .ok v => f v
  | .err e => .err e
  | .noReturn => .noReturn

end Sys2Proof.Machine
end

