-- ==== Sys2Proof/Machine/Flags.lean ====
section
/-! DEFINITION. Machine/Flags.lean: the status codes (spec R150). The unit has no flags (R25): a command's only
effect besides its destination register is the code it leaves in `STATUS`. -/

namespace Sys2Proof.Machine

/-- `OK` (R150). -/
def codeOk : Code := 0x00#8

/-- `IllegalCommand` (R150, R155). -/
def codeIllegalCommand : Code := 0x07#8

/-- `code(E)`: the status code of an error (R150). -/
def code : FnError → Code
  | .xOutOfBounds => 0x01#8
  | .muOutOfBounds => 0x02#8
  | .sigmaOutOfBounds => 0x03#8
  | .arithmeticOverflow => 0x04#8
  | .minValueUnrepresentable => 0x05#8
  | .divideByZero => 0x06#8

/-- The code a command completes with when its function gave this outcome (R65); none if it does not return (U5). -/
def FnOutcome.status : FnOutcome → Option Code
  | .ok _ => some codeOk
  | .err e => some (code e)
  | .noReturn => none

end Sys2Proof.Machine
end

