-- ==== Sys2Proof/Config.lean ====
section
/-! DEFINITION. Config.lean: the configuration of one unit, that is the open parameters of the function layer
(spec R7, R26), and the free values of the model. The values of the default configuration stand in
Machine/Numbers.lean. -/

namespace Sys2Proof

/-- Which fixed-point exponential the unit is built with (the open parameter `EXPWAD`, R7, R100). The first three are
what R100 allows; the other two break it, and stay values of the parameter (93_implementation_defined.md U5; log entry
11). Their `use` counts the uses that came before: a function that is not a function of the operand alone may answer
differently at each. -/
inductive Expwad where
  /-- `EXPWAD_REF`, the default the spec recommends: the exponential rounded toward zero (R101). -/
  | ref
  /-- `EXPWAD_ALT`, the recalled integer routine of R107. -/
  | alt
  /-- Any other function that meets R100: the `n`-th unknown one, `Config.freeExpwad n`. -/
  | free (n : Nat)
  /-- A total one that breaks R100 (b) or (c): its answer may change from one use to the next, and may be any error.
  The `n`-th unknown one, `Config.freeUnrulyExpwad n`. -/
  | unruly (n use : Nat)
  /-- One that breaks R100 (a) as well: a call may never return. The `n`-th unknown one, `Config.freePartialExpwad n`. -/
  | nontotal (n use : Nat)
deriving DecidableEq, Repr

/-- The configuration of a unit (R7, R26): constants that no transaction reads out or changes. -/
structure Config where
  /-- √2 at scale WAD (R7). -/
  SQRT2 : Int
  /-- The coefficient subtracted in the exponent (R110). -/
  A : Int
  /-- Constant term of the outer polynomial (R110). -/
  B : Int
  /-- Outer polynomial (R110). -/
  C : Int
  /-- Outer polynomial (R110). -/
  D : Int
  /-- Outer polynomial, the last coefficient before the inner one (R110). -/
  E : Int
  /-- Constant term of the inner polynomial (R110). -/
  F : Int
  /-- Inner polynomial (R110). -/
  G : Int
  /-- Inner polynomial (R110). -/
  H : Int
  /-- Inner polynomial (R110). -/
  I : Int
  /-- Leading coefficient of the inner polynomial (R110). -/
  J : Int
  /-- The exponential the unit is built with (R100). -/
  expwad : Expwad
deriving DecidableEq, Repr

/-- FREE VALUE (log entry 4). The unknown exponentials a configuration may name: for each number a total
function of the operand that answers a word, or `none` for `ArithmeticOverflow`. It has no body, so a claim about
`Expwad.free n` is a claim about every function that meets R100 (a), (b) and (c). -/
opaque Config.freeExpwad : Nat → Word → Option Word

/-- FREE VALUE (log entry 11). The exponentials that break R100 (b) or (c), but are total: for each number and each use
of the exponential a function of the operand that answers a word or any error. It has no body. -/
opaque Config.freeUnrulyExpwad : Nat → Nat → Word → Except Machine.FnError Word

/-- FREE VALUE (log entry 11). The exponentials that are not total: as above, and `none` is a call that never returns.
It has no body. -/
opaque Config.freePartialExpwad : Nat → Nat → Word → Option (Except Machine.FnError Word)

end Sys2Proof
end

