-- ==== Sys2Proof/Machine/Numbers.lean ====
section
/-! DEFINITION. Machine/Numbers.lean: the numbers of the unit: reading a word as a signed value and back (spec R9),
the constants (R5, R6, R26), the default configuration (R7, R110) and the constraints on a configuration (R111),
truncating division (R10) and the range check (R11). -/

namespace Sys2Proof

/-- The default configuration: `SQRT2` of R7, the coefficients of R110 and `EXPWAD_REF` of R101. PRESUMED (log entry 7):
the literals are the defaults the spec recommends, from general knowledge. -/
def Config.default : Config where
  SQRT2 := 1414213562373095048
  A := 1265512230000000000
  B := 1000023680000000000
  C := 374091960000000000
  D := 96784180000000000
  E := -186288060000000000
  F := 278868070000000000
  G := -1135203980000000000
  H := 1488515870000000000
  I := -822152230000000000
  J := 170872770000000000
  expwad := .ref

/-- The magnitude bound R111 puts on a coefficient: 2*10^18. -/
def Config.coefficientOk (v : Int) : Bool := -2000000000000000000 ≤ v && v ≤ 2000000000000000000

/-- The exponential meets R100. -/
def Expwad.lawful : Expwad → Bool
  | .ref => true
  | .alt => true
  | .free _ => true
  | .unruly _ _ => false
  | .nontotal _ _ => false

/-- The exponential meets R100 (a): it returns an outcome for every operand. -/
def Expwad.total : Expwad → Bool
  | .ref => true
  | .alt => true
  | .free _ => true
  | .unruly _ _ => true
  | .nontotal _ _ => false

/-- The exponential as it is after `k` more uses: the same one, where its answer is a function of the operand alone
(R100 (b)). -/
def Expwad.after : Expwad → (k : Nat) → Expwad
  | .ref, _ => .ref
  | .alt, _ => .alt
  | .free n, _ => .free n
  | .unruly n use, k => .unruly n (use + k)
  | .nontotal n use, k => .nontotal n (use + k)

/-- The constraints of R111 on a configuration. One outside them is not an error of the unit. -/
def Config.admissible (c : Config) : Bool :=
  coefficientOk c.A && coefficientOk c.B && coefficientOk c.C && coefficientOk c.D && coefficientOk c.E
    && coefficientOk c.F && coefficientOk c.G && coefficientOk c.H && coefficientOk c.I && coefficientOk c.J
    && (1400000000000000000 ≤ c.SQRT2 && c.SQRT2 ≤ 1500000000000000000) && c.expwad.lawful

end Sys2Proof

namespace Sys2Proof.Machine

/-- The signed value of a word, in [MIN, MAX] (R9). -/
def sval (b : Word) : Int := b.toInt

/-- The unsigned value of a word (R9). -/
def uval (b : Word) : Nat := b.toNat

/-- The word whose signed value is `v`, for `v` in [MIN, MAX] (R9). -/
def word (v : Int) : Word := BitVec.ofInt 256 v

/-- 2^255 - 1 (R5). -/
def MAX : Int := 57896044618658097711785492504343953926634992332820282019728792003956564819967

/-- -2^255 (R5). -/
def MIN : Int := -57896044618658097711785492504343953926634992332820282019728792003956564819968

/-- The fixed-point scale 10^18 (R5). -/
def WAD : Int := 1000000000000000000

/-- WAD * WAD = 10^36 (R5). -/
def WAD2 : Int := 1000000000000000000000000000000000000

/-- 2 * WAD (R5). -/
def TWO_WAD : Int := 2000000000000000000

/-- 10^23: the largest magnitude of the evaluation point (R6). -/
def X_BOUND : Int := 100000000000000000000000

/-- 10^20: the largest magnitude of the mean (R6). -/
def MU_BOUND : Int := 100000000000000000000

/-- 10^19: the largest standard deviation (R6). -/
def SIGMA_BOUND : Int := 10000000000000000000

/-- 5.9 * 10^18: from this magnitude on ERFC saturates (R6, R116). -/
def ERFC_BOUND : Int := 5900000000000000000

/-- The quotient truncated toward zero, `sgn a * sgn b * floor(|a| / |b|)`, for `b ≠ 0` (R10). Every rule that
divides says what a zero divisor does before it divides. -/
def tdiv (a b : Int) : Int := a.sign * b.sign * ((a.natAbs / b.natAbs : Nat) : Int)

/-- `v` if it is representable, and `ArithmeticOverflow` otherwise (R11, R80). -/
def chk (v : Int) : FnOutcome :=
  if MIN ≤ v ∧ v ≤ MAX then .ok v else .err .arithmeticOverflow

end Sys2Proof.Machine
end

