-- ==== Sys2Proof/Machine/State.lean ====
section
/-! DEFINITION. Machine/State.lean: the state of one unit (spec R20, R31), what stands at its host port (R41), the
reasons a step can stop, and the state after reset (R27, R180). -/

namespace Sys2Proof.Machine

/-- The five transactions of the host port (R41). -/
inductive Transaction where
  /-- `HostWrite(i, b)` (R42). -/
  | hostWrite (i : Reg) (b : Word)
  /-- `HostRead(i)` (R43). -/
  | hostRead (i : Reg)
  /-- `Issue(c)` (R44). -/
  | issue (c : CommandWord)
  /-- `HostStatus()` (R45). -/
  | hostStatus
  /-- `Reset()` (R46, R180). -/
  | reset
deriving DecidableEq, Repr

/-- What a transaction returns to the host. -/
inductive Reply where
  /-- Nothing: `HostWrite`, `Reset`, and before the first transaction. -/
  | none
  /-- The word `HostRead` returns (R43). -/
  | word (b : Word)
  /-- The code `Issue` and `HostStatus` return (R44, R45). -/
  | code (c : Code)
deriving DecidableEq, Repr

/-- The state of one GCDF unit. The spec's own state is `w` and `status` (R20). The other fields are the model's:
`held`, `faulted` and `readUnheld` are the ghost state of R28 and R158, which no rule reads (DESIGN CHOICE, log entry
8); `port` and `reply` are the two sides of the host port, an input the host supplies and an output it sees (DESIGN
CHOICE, log entry 2); `cfg` is the configuration the unit was built with, which no transaction changes (R26; DESIGN
CHOICE, log entry 3); `commandCount` numbers the commands, so that an exponential that breaks R100 (b) can answer anew at
each (DESIGN CHOICE, log entry 16). -/
structure State where
  /-- The work registers `w[0]` to `w[7]` (R21). -/
  w : Vector Word 8
  /-- `STATUS`, whose one field is `CODE` (R24). -/
  status : Code
  /-- Ghost: which registers hold a value, having been written since the last reset (R28). -/
  held : Vector Bool 8
  /-- Ghost: some command since the last reset completed with a code other than `0x00` (R158). -/
  faulted : Bool
  /-- Ghost: some command or `HostRead` since the last reset read a register that held no value (R28, R158). -/
  readUnheld : Bool
  /-- The transactions the host has still to make, in its order, the next one first (R50). -/
  port : List Transaction
  /-- What the last transaction returned. -/
  reply : Reply
  /-- The configuration (R7, R26). -/
  cfg : Config
  /-- How many commands the unit has executed. -/
  commandCount : Nat
deriving DecidableEq, Repr

/-- Why the machine stops with a fault. An error is no such reason: it completes its command with a status code, and
the next transaction is accepted as after any other (R154, R186). -/
inductive Fault where
  /-- Raised by EXPW, ERFC and CDF in a unit built with an exponential that is not total, when its call does not return:
  the `Issue` is stuck (93_implementation_defined.md U5). Safe: no total exponential raises it. -/
  | expwadDoesNotReturn
deriving DecidableEq, Repr

/-- Why an instruction has no meaning. -/
inductive Refusal where
  /-- Raised by an arm of `exec` whose instruction has no meaning in the model yet; safe. No arm raises it: all
  eight commands are modelled. -/
  | notModelled (mnemonic : String)
deriving DecidableEq, Repr

/-- The registers after reset. DESIGN CHOICE, unsafe (log entry 1): the spec gives them no value (R27), and the model
names one, zero, and marks the registers as holding no value. -/
def State.resetRegisters : Vector Word 8 := Vector.replicate 8 0#256

/-- The machine right after reset (R27, R180), built with the default configuration (R7), before the host's first
transaction. -/
def State.reset : State where
  w := State.resetRegisters
  status := 0x00#8
  held := Vector.replicate 8 false
  faulted := false
  readUnheld := false
  port := []
  reply := .none
  cfg := Config.default
  commandCount := 0

end Sys2Proof.Machine
end

