-- ==== Sys2Proof/Machine/Ops.lean ====
section
/-! DEFINITION. Machine/Ops.lean: the operations every command and transaction is made of: reading and writing a
work register (spec R12, R21), the ghost marks (R28, R158), and the end of a command (R65, R153, R154), which stands
in this unit for taking an exception: an error is a way for a command to complete, there is no trap entry and no
trap return (R160, R161). -/

namespace Sys2Proof.Machine

/-- The word in `w[i]` (R21). -/
def State.regWord (s : State) (i : Reg) : Word := s.w[i]

/-- `w[i] <- b`: the register then holds a value (R28); nothing else changes. -/
def State.writeReg (s : State) (i : Reg) (b : Word) : State :=
  { s with w := s.w.set i b, held := s.held.set i true }

/-- Whether `w[i]` holds a value (R28). -/
def State.holds (s : State) (i : Reg) : Bool := s.held[i]

/-- Mark the run if one of the registers read holds no value (R28, R158). -/
def State.noteReads (s : State) (rs : List Reg) : State :=
  { s with readUnheld := s.readUnheld || rs.any (fun r => !s.holds r) }

/-- `complete(c)`, the end of every command: `STATUS <- c`, and `c` is returned to the issuer (R153). The ghost bit
`faulted` is set by every code but `0x00` (R158). -/
def State.complete (s : State) (c : Code) : State :=
  { s with status := c, reply := .code c, faulted := s.faulted || c != codeOk }

/-- One more command has been executed. -/
def State.countCommand (s : State) : State := { s with commandCount := s.commandCount + 1 }

/-- The configuration as the command at hand meets it: an exponential that breaks R100 (b) has been used before. Any
other is `cfg` itself. -/
def State.cfgNow (s : State) : Config := { s.cfg with expwad := s.cfg.expwad.after s.commandCount }

/-- The last lines of the common execution sequence (R65): a value is written to the destination and the command
completes with `0x00`; an error completes with its code and writes no register (R154); a call that never returns leaves
the command stuck (U5). -/
def State.finish (s : State) (rd : Reg) : FnOutcome → Host.Outcome State Fault Refusal
  | .ok v => .next ((s.writeReg rd (word v)).complete codeOk)
  | .err e => .next (s.complete (code e))
  | .noReturn => .fault .expwadDoesNotReturn

end Sys2Proof.Machine
end

