-- ==== Sys2Proof/Machine/Operands.lean ====
section
/-! DEFINITION. Machine/Operands.lean: the operand forms of the commands (spec R22, R65). Every source is a whole
work register read as a signed value; all sources are read before the destination is written. -/

namespace Sys2Proof.Machine

/-- The signed value of a source register (R22). -/
def State.operand (s : State) (r : Reg) : Int := sval (s.regWord r)

/-- The common execution sequence (R65) of a command whose sources are `srcs` and whose function gave the outcome
`o` on their values in `s`. -/
def State.command (s : State) (rd : Reg) (srcs : List Reg) (o : FnOutcome) :
    Host.Outcome State Fault Refusal :=
  (s.noteReads srcs).countCommand.finish rd o

/-- A command with one source: `ABS`, `EXPW`, `POLY`, `ERFC`. -/
def State.command1 (s : State) (f : Int → FnOutcome) (rd ra : Reg) :
    Host.Outcome State Fault Refusal :=
  s.command rd [ra] (f (s.operand ra))

/-- A command with two sources: `MULWAD`, `DIVWAD`. -/
def State.command2 (s : State) (f : Int → Int → FnOutcome) (rd ra rb : Reg) :
    Host.Outcome State Fault Refusal :=
  s.command rd [ra, rb] (f (s.operand ra) (s.operand rb))

/-- A command with three sources: `MULDIV`, `CDF`. -/
def State.command3 (s : State) (f : Int → Int → Int → FnOutcome) (rd ra rb rc : Reg) :
    Host.Outcome State Fault Refusal :=
  s.command rd [ra, rb, rc] (f (s.operand ra) (s.operand rb) (s.operand rc))

end Sys2Proof.Machine
end

