-- ==== Sys2Proof/Machine/Arith.lean ====
section
/-! DEFINITION. Machine/Arith.lean: checked fixed-point arithmetic (spec 40_arith.md): `F_muldiv` and its instances,
`F_abs`, and the meanings of MULWAD, DIVWAD, MULDIV and ABS. -/

namespace Sys2Proof.Machine

/-- The general multiply-divide (R82): the exact product is range-checked, then the divisor is tested, then the
truncated quotient is range-checked; the quotient can only be too large (product MIN, divisor -1). -/
def F_muldiv (a b d : Int) : FnOutcome :=
  (chk (a * b)).bind fun p =>
    if d = 0 then .err .divideByZero
    else if tdiv p d > MAX then .err .arithmeticOverflow
    else .ok (tdiv p d)

/-- Checked multiply and rescale (R83). -/
def F_mulwad (x y : Int) : FnOutcome := F_muldiv x y WAD

/-- Checked divide and rescale (R85). -/
def F_divwad (x y : Int) : FnOutcome := F_muldiv x WAD y

/-- Absolute value (R89). -/
def F_abs (x : Int) : FnOutcome :=
  if x = MIN then .err .minValueUnrepresentable
  else if x ≥ 0 then .ok x
  else .ok (-x)

/-- `MULWAD rd, ra, rb` (R84). -/
def execMulwad (rd ra rb : Reg) (s : State) : Host.Outcome State Fault Refusal :=
  s.command2 F_mulwad rd ra rb

/-- `DIVWAD rd, ra, rb` (R86). -/
def execDivwad (rd ra rb : Reg) (s : State) : Host.Outcome State Fault Refusal :=
  s.command2 F_divwad rd ra rb

/-- `MULDIV rd, ra, rb, rc` (R88). -/
def execMuldiv (rd ra rb rc : Reg) (s : State) : Host.Outcome State Fault Refusal :=
  s.command3 F_muldiv rd ra rb rc

/-- `ABS rd, ra` (R91). -/
def execAbs (rd ra : Reg) (s : State) : Host.Outcome State Fault Refusal :=
  s.command1 F_abs rd ra

end Sys2Proof.Machine
end

