-- ==== Sys2Proof/Machine/Exp.lean ====
section
/-! DEFINITION. Machine/Exp.lean: the fixed-point exponentiator (spec 41_exp.md): `EXPWAD_REF` by the integer
procedure of R103, the alternative of R107, the configured `EXPWAD`, and the meaning of EXPW. -/

namespace Sys2Proof.Machine

/-- A partial sum of the exponential series of `q = k / 10^18` over one denominator: `num / den` is the sum of the
first `n` terms `q^j / j!`, and `pow / den` is the term `q^n / n!` after them. -/
structure ExpSum where
  num : Int
  pow : Int
  den : Int
deriving DecidableEq, Repr

/-- The sum of the first `n` terms of the series (`S_N` of R103). -/
def expSum (k : Int) : Nat → ExpSum
  | 0 => ⟨0, 1, 1⟩
  | n + 1 =>
    let p := expSum k n
    let f := WAD * (n + 1 : Int)
    ⟨(p.num + p.pow) * f, p.pow * k, p.den * f⟩

/-- The numerator of `10^18 * (S_N - T_N)` over the denominator of `S_N`, with `T_N = 2 * |q|^N / N!` (R103). -/
def ExpSum.lowNum (p : ExpSum) : Int := WAD * (p.num - 2 * (p.pow.natAbs : Int))

/-- The numerator of `10^18 * (S_N + T_N)` (R103). -/
def ExpSum.highNum (p : ExpSum) : Int := WAD * (p.num + 2 * (p.pow.natAbs : Int))

/-- `floor(L)` of R103. -/
def ExpSum.lowFloor (p : ExpSum) : Int := p.lowNum / p.den

/-- `floor(U)` of R103. -/
def ExpSum.highFloor (p : ExpSum) : Int := p.highNum / p.den

/-- The test of R103: `floor(L) = floor(U)` and `L > 0`. -/
def ExpSum.decided (p : ExpSum) : Bool := p.lowFloor == p.highFloor && 0 < p.lowNum

/-- The loop of R103: the number of terms is doubled until the two bounds have the same floor, that is `floor(L)`. The
spec's loop has no bound in its text; this one makes at most `rounds` tests, and its last line is reached only if none
of them decides. -/
def expSearch (k : Int) : (rounds : Nat) → (n : Nat) → Int
  | 0, n => (expSum k n).lowFloor
  | rounds + 1, n =>
    if (expSum k n).decided then (expSum k n).lowFloor else expSearch k rounds (2 * n)

/-- The tests `EXPWAD_REF` may make, of 400 to 400 * 2^79 terms. One of them decides for every operand between the
thresholds: a sum of 10^26 terms always does (`decided_of_large` in Laws/ExpGap.lean; DEDUCED, log entry 5), so the bound
cuts nothing off. -/
def EXP_ROUNDS : Nat := 80

/-- The largest operand at which `EXPWAD_REF` is 0 (R102). -/
def EXP_ZERO_FROM : Int := -41446531673892822313

/-- The smallest operand at which `EXPWAD_REF` overflows (R102). -/
def EXP_OVERFLOW_FROM : Int := 135305999368893231590

/-- `EXPWAD_REF(k) = floor(10^18 * e^(k / 10^18))`, or `ArithmeticOverflow` above MAX (R101), computed by R102 and
R103. -/
def expwadRef (k : Int) : FnOutcome :=
  if k ≤ EXP_ZERO_FROM then .ok 0
  else if k ≥ EXP_OVERFLOW_FROM then .err .arithmeticOverflow
  else if k = 0 then .ok WAD
  else chk (expSearch k EXP_ROUNDS 400)

/-- `x << n` on integers that do not wrap (R107). -/
def shl (x : Int) (n : Nat) : Int := x * ((Nat.shiftLeft 1 n : Nat) : Int)

/-- `x >> n`, the arithmetic right shift (R107). -/
def sar (x : Int) (n : Nat) : Int := x / ((Nat.shiftLeft 1 n : Nat) : Int)

/-- The rational step of `EXPWAD_ALT` (R107): the quotient `r` of its two polynomials in the reduced operand `x`. -/
def expwadAltRational (x : Int) : Int :=
  let y := x + 1346386616545796478920950773328
  let y := sar (y * x) 96 + 57155421227552351082224309758442
  let p := y + x - 94201549194550492254356042504812
  let p := sar (p * y) 96 + 28719021644029726153956944680412240
  let p := p * x + shl 4385272521454847904659076985693276 96
  let q := x - 2855989394907223263936484059900
  let q := sar (q * x) 96 + 50020603652535783019961831881945
  let q := sar (q * x) 96 - 533845033583426703283633433725380
  let q := sar (q * x) 96 + 3604857256930695427073651918091429
  let q := sar (q * x) 96 - 14423608567350463180887372962807573
  let q := sar (q * x) 96 + 26449188498355588339934803723976023
  tdiv p q

/-- `EXPWAD_ALT` (R107), one possible value of the parameter. Its result is range-checked, as R100 requires of every
instantiation (DEDUCED, log entry 6); the literals are the spec's, recalled and unaudited. -/
def expwadAlt (x : Int) : FnOutcome :=
  if x ≤ -42139678854452767551 then .ok 0
  else if x ≥ 135305999368893231589 then .err .arithmeticOverflow
  else
    let x := tdiv (shl x 78) 3814697265625
    let k := sar (tdiv (shl x 96) 54916777467707473351141471128 + shl 1 95) 96
    let r := expwadAltRational (x - k * 54916777467707473351141471128)
    chk (sar (r * 3822833074963236453042738258902158003155416615667) (195 - k).toNat)

/-- What an exponential that breaks R100 (b) or (c) answered (U5). -/
def unrulyOutcome : Except FnError Word → FnOutcome
  | .ok b => .ok (sval b)
  | .error e => .err e

/-- The configured exponential, applied to the whole operand with no range check of its own (R100, R104). -/
def F_exp (c : Config) (k : Int) : FnOutcome :=
  match c.expwad with
  | .ref => expwadRef k
  | .alt => expwadAlt k
  | .free n =>
    match Config.freeExpwad n (word k) with
    | some b => .ok (sval b)
    | none => .err .arithmeticOverflow
  | .unruly n use => unrulyOutcome (Config.freeUnrulyExpwad n use (word k))
  | .nontotal n use =>
    match Config.freePartialExpwad n use (word k) with
    | some a => unrulyOutcome a
    | none => .noReturn

/-- `EXPW rd, ra` (R105). An error other than `ArithmeticOverflow`, which only an exponential outside R100 raises, ends
the command with its own code, as R65 says of every command. -/
def execExpw (rd ra : Reg) (s : State) : Host.Outcome State Fault Refusal :=
  s.command1 (F_exp s.cfgNow) rd ra

end Sys2Proof.Machine
end

