-- ==== Sys2Proof/Machine/Erfc.lean ====
section
/-! DEFINITION. Machine/Erfc.lean: the polynomial evaluator and the ERFC approximator (spec 42_erfc.md), and the
meanings of POLY and ERFC. -/

namespace Sys2Proof.Machine

/-- One step of the Horner chain (R112): `chk(coeff + F_mulwad(t, s))`. -/
def hornerStep (t coeff s : Int) : FnOutcome :=
  (F_mulwad t s).bind fun m => chk (coeff + m)

/-- The exponent polynomial (R112): nine products, each truncated before the next coefficient is added. -/
def F_poly (c : Config) (t : Int) : FnOutcome :=
  (hornerStep t c.I c.J).bind fun s =>
  (hornerStep t c.H s).bind fun s =>
  (hornerStep t c.G s).bind fun s =>
  (hornerStep t c.F s).bind fun inner =>
  (hornerStep t c.E inner).bind fun s =>
  (hornerStep t c.D s).bind fun s =>
  (hornerStep t c.C s).bind fun s =>
  (hornerStep t c.B s).bind fun outer =>
  F_mulwad t outer

/-- Step 3 of `F_erfc` (R115, R116): `t = WAD*WAD / (WAD + z*WAD/(2*WAD))`, the inner quotient truncated first. -/
def erfcT (z : Int) : FnOutcome :=
  (F_muldiv z WAD TWO_WAD).bind fun quo =>
  (chk (WAD + quo)).bind fun den =>
  F_muldiv WAD WAD den

/-- Step 5 of `F_erfc` (R115, R117): `k = -z² - A + step`. -/
def erfcExponent (c : Config) (z step : Int) : FnOutcome :=
  (F_mulwad z z).bind fun zz =>
  (chk (-zz)).bind fun u =>
  (chk (u - c.A)).bind fun v =>
  chk (v + step)

/-- Steps 3 to 7 of `F_erfc` (R115): the value `r` for the magnitude `z`. -/
def erfcR (c : Config) (z : Int) : FnOutcome :=
  (erfcT z).bind fun t =>
  (F_poly c t).bind fun step =>
  (erfcExponent c z step).bind fun k =>
  (F_exp c k).bind fun e =>
  F_mulwad t e

/-- The complementary error function (R115): the inclusive shortcuts of step 1, then the magnitude, then the sign
branch of step 8 on the original input. -/
def F_erfc (c : Config) (input : Int) : FnOutcome :=
  if input ≥ ERFC_BOUND then .ok 0
  else if input ≤ -ERFC_BOUND then .ok TWO_WAD
  else
    (F_abs input).bind fun z =>
    (erfcR c z).bind fun r =>
    if input ≥ 0 then .ok r else chk (TWO_WAD - r)

/-- `POLY rd, ra` (R114). -/
def execPoly (rd ra : Reg) (s : State) : Host.Outcome State Fault Refusal :=
  s.command1 (F_poly s.cfg) rd ra

/-- `ERFC rd, ra` (R121). -/
def execErfc (rd ra : Reg) (s : State) : Host.Outcome State Fault Refusal :=
  s.command1 (F_erfc s.cfgNow) rd ra

end Sys2Proof.Machine
end

