-- ==== Sys2Proof/Machine/Cdf.lean ====
section
/-! DEFINITION. Machine/Cdf.lean: the CDF wrapper (spec 43_cdf.md) and the meaning of CDF. -/

namespace Sys2Proof.Machine

/-- Step 2 of `F_cdf` (R130, R132): `-tdiv((x - mu) * WAD2, SQRT2 * sigma)`, one truncation. -/
def cdfArgument (c : Config) (x mu sigma : Int) : FnOutcome :=
  (chk (x - mu)).bind fun d =>
  (chk (c.SQRT2 * sigma)).bind fun den =>
  (F_muldiv d WAD2 den).bind fun q =>
  chk (-q)

/-- The Gaussian cumulative distribution function (R130): validation in the order x, mu, sigma before any
arithmetic (R131), the change of variable, `F_erfc`, and the rescale (R133). -/
def F_cdf (c : Config) (x mu sigma : Int) : FnOutcome :=
  if x < -X_BOUND ∨ x > X_BOUND then .err .xOutOfBounds
  else if mu < -MU_BOUND ∨ mu > MU_BOUND then .err .muOutOfBounds
  else if sigma ≤ 0 ∨ sigma > SIGMA_BOUND then .err .sigmaOutOfBounds
  else
    (cdfArgument c x mu sigma).bind fun negatedZ =>
    (F_erfc c negatedZ).bind fun e =>
    F_muldiv WAD e TWO_WAD

/-- `CDF rd, ra, rb, rc` (R137). -/
def execCdf (rd ra rb rc : Reg) (s : State) : Host.Outcome State Fault Refusal :=
  s.command3 (F_cdf s.cfgNow) rd ra rb rc

end Sys2Proof.Machine
end

