-- ==== Sys2Proof/Machine/Dispatch.lean ====
section
/-! DEFINITION. Machine/Dispatch.lean: the meaning of each command, one arm per constructor (spec R67). -/

namespace Sys2Proof.Machine

def exec (i : Instr) (s : State) : Host.Outcome State Fault Refusal :=
  match i with
  | .mulwad rd ra rb => Sys2Proof.Machine.execMulwad rd ra rb s
  | .divwad rd ra rb => Sys2Proof.Machine.execDivwad rd ra rb s
  | .muldiv rd ra rb rc => Sys2Proof.Machine.execMuldiv rd ra rb rc s
  | .abs rd ra => Sys2Proof.Machine.execAbs rd ra s
  | .expw rd ra => Sys2Proof.Machine.execExpw rd ra s
  | .poly rd ra => Sys2Proof.Machine.execPoly rd ra s
  | .erfc rd ra => Sys2Proof.Machine.execErfc rd ra s
  | .cdf rd ra rb rc => Sys2Proof.Machine.execCdf rd ra rb rc s

end Sys2Proof.Machine
end

