-- ==== Sys2Proof/Machine/Port.lean ====
section
/-! DEFINITION. Machine/Port.lean: the five transactions of the host port (spec R41 to R46). Each is atomic and
completes before the next (R30, R49, R50). -/

namespace Sys2Proof.Machine

/-- `HostWrite(i, b)` (R42): `w[i] <- b`; `STATUS` is not touched and nothing is returned. -/
def hostWrite (i : Reg) (b : Word) (s : State) : State :=
  { s.writeReg i b with reply := .none }

/-- `HostRead(i)` (R43): returns the word in `w[i]` and changes nothing. Reading a register that holds no value
marks the run (R28). -/
def hostRead (i : Reg) (s : State) : State :=
  { s.noteReads [i] with reply := .word (s.regWord i) }

/-- `HostStatus()` (R45): returns `STATUS` and changes nothing. -/
def hostStatus (s : State) : State := { s with reply := .code s.status }

/-- `Reset()` (R180): the state after reset. The configuration is not state and stays (R26, R187); the ghost bits
are cleared (R158); the transactions the host has still to make are the host's, and the count of commands goes on
(DESIGN CHOICE, log entry 9). -/
def hostReset (s : State) : State :=
  { State.reset with cfg := s.cfg, port := s.port, commandCount := s.commandCount }

/-- `Issue(c)` (R44, R65): decode, execute, complete. A word that is no command completes with `IllegalCommand`,
reading and writing no register (R66, R155). -/
def issueCommand (c : CommandWord) (s : State) : Host.Outcome State Fault Refusal :=
  match decode c with
  | .command i => exec i s
  | .illegal _ => .next (s.complete codeIllegalCommand)

/-- Perform one transaction (R41). -/
def perform (t : Transaction) (s : State) : Host.Outcome State Fault Refusal :=
  match t with
  | .hostWrite i b => .next (hostWrite i b s)
  | .hostRead i => .next (hostRead i s)
  | .issue c => issueCommand c s
  | .hostStatus => .next (hostStatus s)
  | .reset => .next (hostReset s)

/-- Perform the host's next transaction and leave the others at the port; with none left the unit is idle and keeps
its state (R29, R164; DESIGN CHOICE, log entry 2). -/
def performNext (s : State) : Host.Outcome State Fault Refusal :=
  match s.port with
  | [] => .next s
  | t :: rest => perform t { s with port := rest }

/-- Put an `Issue` of `c` in front of what the host has still to do. -/
def State.issueNext (s : State) (c : CommandWord) : State := { s with port := .issue c :: s.port }

end Sys2Proof.Machine
end

