-- ==== Sys2Proof/Machine/Step.lean ====
section
/-! DEFINITION. Machine/Step.lean: one step of the unit: the host's next transaction, performed to completion
(spec R30, R50). -/

namespace Sys2Proof.Machine

/-- One step: the next transaction at the port. There is no program counter and no fetch (R23). -/
def step (s : State) : Host.Outcome State Fault Refusal := performNext s

/-- `s` with the command word whose bits are `w` issued as the very next transaction: the unit fetches nothing, a
command word comes to it inside an `Issue` (R23, R44). -/
def State.withFetchWord (s : State) (nbits w : Nat) : State := s.issueNext (tableWord nbits w)

end Sys2Proof.Machine
end

