-- ==== Sys2Proof/Machine/Instances.lean ====
section
/-! DEFINITION. Machine/Instances.lean: several units in one system (spec R165). The number of units,
`N_INSTANCES`, is an open parameter (R8). -/

namespace Sys2Proof.Machine

/-- A system of `n` units, each with its own registers, `STATUS`, port and configuration: they share nothing (log entry
13). -/
abbrev System (n : Nat) := Vector State n

/-- The next transaction at the port of unit `k`; no other unit changes (R165). -/
def System.stepUnit {n : Nat} (sys : System n) (k : Fin n) : Host.Outcome (System n) Fault Refusal :=
  match step sys[k] with
  | .next t => .next (sys.set k t)
  | .fault f => .fault f
  | .refused r => .refused r

end Sys2Proof.Machine
end

