-- ==== Sys2Proof/Machine/Serial.lean ====
section
/-! DEFINITION. Machine/Serial.lean: the byte image of a word and the vector-file format (spec R47, R48), the
transactions a harness drives the unit with (R48, R183), and the assembler syntax (R68). None of it is an interface
of the unit. -/

namespace Sys2Proof.Machine

/-- The 32 bytes of a word: byte 0 holds bits 255 to 248 (R47). PRESUMED (log entry 12): that a negative value is
written in two's complement is the spec's general knowledge. -/
def bytesOfWord (b : Word) : List Byte := bytesBE 32 b.toNat

/-- The word of 32 bytes, and no word for another number of bytes (R47). -/
def wordOfBytes (bs : List Byte) : Option Word :=
  if bs.length = 32 then some (BitVec.ofNat 256 (natOfBytesBE bs)) else none

/-- One element of an `input` file: x, mu and sigma (R48). -/
structure InputTriple where
  x : Word
  mu : Word
  sigma : Word
deriving DecidableEq, Repr

/-- The bytes of an `input` file: 96 a triple, contiguous, no header (R48). -/
def bytesOfInput (ts : List InputTriple) : List Byte :=
  ts.flatMap fun t => bytesOfWord t.x ++ bytesOfWord t.mu ++ bytesOfWord t.sigma

/-- The bytes of an `output` file: 32 a result (R48). -/
def bytesOfOutput (rs : List Word) : List Byte := rs.flatMap bytesOfWord

/-- The words of a file of exactly `n` words, and nothing for a file of another length. -/
def wordsOfFile : (n : Nat) → List Byte → Option (List Word)
  | 0, [] => some []
  | 0, _ :: _ => none
  | n + 1, bs =>
    match wordOfBytes (bs.take 32), wordsOfFile n (bs.drop 32) with
    | some b, some rest => some (b :: rest)
    | _, _ => none

/-- Words grouped in triples; nothing if their number is no multiple of three. -/
def triplesOfWords : List Word → Option (List InputTriple)
  | [] => some []
  | x :: mu :: sigma :: rest =>
    match triplesOfWords rest with
    | some ts => some (⟨x, mu, sigma⟩ :: ts)
    | none => none
  | [_] => none
  | [_, _] => none

/-- Read an `input` file of `n` triples, `n` being known to both sides (R48). -/
def inputOfBytes (n : Nat) (bs : List Byte) : Option (List InputTriple) :=
  match wordsOfFile (3 * n) bs with
  | some ws => triplesOfWords ws
  | none => none

/-- Read an `output` file of `n` results (R48). -/
def outputOfBytes (n : Nat) (bs : List Byte) : Option (List Word) := wordsOfFile n bs

/-- How a harness drives the unit with one element of the `input` file (R48): `HostWrite` of the three words,
`Issue` of a `CDF` command, and `HostRead` of the destination, with the registers of program P1. -/
def harnessElement (t : InputTriple) : List Transaction :=
  [.hostWrite 1 t.x, .hostWrite 2 t.mu, .hostWrite 3 t.sigma, .issue (encode (.cdf 0 1 2 3)), .hostRead 0]

/-- The order of a complete use (R183): a reset, then the elements one after another with no new reset. -/
def harnessRun (ts : List InputTriple) : List Transaction := .reset :: ts.flatMap harnessElement

/-- The name of a work register, `w0` to `w7` (R21). -/
def regName (r : Reg) : String := "w" ++ toString r.val

/-- A command in the assembler syntax of R68: mnemonic in capitals, destination first, then the sources in order. -/
def asm : Instr → String
  | .mulwad rd ra rb => "MULWAD " ++ regName rd ++ ", " ++ regName ra ++ ", " ++ regName rb
  | .divwad rd ra rb => "DIVWAD " ++ regName rd ++ ", " ++ regName ra ++ ", " ++ regName rb
  | .muldiv rd ra rb rc => "MULDIV " ++ regName rd ++ ", " ++ regName ra ++ ", " ++ regName rb ++ ", " ++ regName rc
  | .abs rd ra => "ABS " ++ regName rd ++ ", " ++ regName ra
  | .expw rd ra => "EXPW " ++ regName rd ++ ", " ++ regName ra
  | .poly rd ra => "POLY " ++ regName rd ++ ", " ++ regName ra
  | .erfc rd ra => "ERFC " ++ regName rd ++ ", " ++ regName ra
  | .cdf rd ra rb rc => "CDF " ++ regName rd ++ ", " ++ regName ra ++ ", " ++ regName rb ++ ", " ++ regName rc

end Sys2Proof.Machine
end

