-- ==== Sys2Proof/Safety.lean ====
section
/-! DEFINITION. Safety.lean: the invariant of the unit and what a run that means something is (spec R24, R45, R158,
R166). -/

namespace Sys2Proof.Machine

/-- A reply that is a code is the code in `STATUS` (R45, R153). -/
def State.replyAgrees (s : State) : Bool :=
  match s.reply with
  | .code c => c == s.status
  | .word _ => true
  | .none => true

/-- The invariant of the unit: `STATUS` holds one of the eight codes `0x00` to `0x07` (R24), a code other than
`0x00` has left the ghost bit `faulted` set (R158), and a code returned to the host is the one in `STATUS` (R45). -/
abbrev State.Inv (s : State) : Prop :=
  s.status ≤ 0x07#8 ∧ (s.status ≠ 0x00#8 → s.faulted = true) ∧ s.replyAgrees = true

/-- The run so far means what the rules say: no register was read that held no value (R28, R182). A claim about a
register's value holds of the hardware only of such a run. -/
abbrev State.Meaningful (s : State) : Prop := s.readUnheld = false

/-- No command of the run so far failed (R158). -/
abbrev State.Clean (s : State) : Prop := s.faulted = false

/-- An exact integer is representable: it lies in [MIN, MAX] (R5, R80). -/
abbrev Fits (v : Int) : Prop := -2 ^ 255 ≤ v ∧ v ≤ 2 ^ 255 - 1

/-- `t` is `s` after a command with destination `rd` completed with `0x00` and the value `v` (R65, R153, R154): the
code is in `STATUS` and returned, the destination holds `v`, and nothing else has changed but the count
of commands. The ghost mark `readUnheld` depends on the command's sources and is left out here. -/
structure State.CompletedOk (s t : State) (rd : Reg) (v : Int) : Prop where
  status : t.status = 0x00#8
  reply : t.reply = .code 0x00#8
  dest : t.w[rd].toInt = v
  destHeld : t.held[rd] = true
  others : ∀ r : Reg, r ≠ rd → t.w[r] = s.w[r] ∧ t.held[r] = s.held[r]
  faulted : t.faulted = s.faulted
  port : t.port = s.port
  cfg : t.cfg = s.cfg
  commandCount : t.commandCount = s.commandCount + 1

/-- `t` is `s` after a command completed with the error code `c` (R153, R154): the code is in `STATUS` and returned,
no work register has changed, and the command is counted. The ghost mark `readUnheld` is left out here. -/
structure State.CompletedErr (s t : State) (c : Code) : Prop where
  status : t.status = c
  reply : t.reply = .code c
  registers : t.w = s.w
  held : t.held = s.held
  faulted : t.faulted = true
  port : t.port = s.port
  cfg : t.cfg = s.cfg
  commandCount : t.commandCount = s.commandCount + 1

/-- The commands that call the exponential (R104, R115, R130). -/
def usesExpwad : Instr → Bool
  | .mulwad _ _ _ => false
  | .divwad _ _ _ => false
  | .muldiv _ _ _ _ => false
  | .abs _ _ => false
  | .expw _ _ => true
  | .poly _ _ => false
  | .erfc _ _ => true
  | .cdf _ _ _ _ => true

/-- A command of the unit returns for certain: the unit's exponential is total, as R100 (a) requires, or the command
does not call it (R30, R186; U5). -/
abbrev State.Returns (s : State) (i : Instr) : Prop := s.cfg.expwad.total = true ∨ usesExpwad i = false

/-- The next transaction of the unit returns for certain. -/
abbrev State.NextReturns (s : State) : Prop :=
  ∀ c i rest, s.port = .issue c :: rest → decode c = .command i → s.Returns i

/-- The operands of `CDF` lie within their bounds (R131). -/
abbrev CdfValid (x mu sigma : Int) : Prop :=
  -10 ^ 23 ≤ x ∧ x ≤ 10 ^ 23 ∧ -10 ^ 20 ≤ mu ∧ mu ≤ 10 ^ 20 ∧ 0 < sigma ∧ sigma ≤ 10 ^ 19

end Sys2Proof.Machine
end

