-- ==== Sys2Proof/Certificates/Slice0/Obligations.lean ====
section
/-! DEFINITION. Certificates/Slice0/Obligations.lean: the statements for the provers. Numbers are written as the spec
writes them (`10 ^ 18` for WAD, `-2 ^ 255` for MIN), and registers are read as `(s.w[r]).toInt`, so that a statement
does not lean on the model's own names for them. -/

open Sys2Proof Sys2Proof.Machine

/-! ### Encoding -/

/-- Words written out from the spec's format decode to the commands they stand for, and words of R66 to none
(R61, R66, R67; the vectors V-DE of 95_test_vectors.md). -/
def Obligations.SpecWordsDecode : Prop :=
  decode 0x08053000#32 = .command (.cdf 0 1 2 3)
  ∧ decode 0x01050000#32 = .command (.mulwad 0 1 2)
  ∧ decode 0x02050000#32 = .command (.divwad 0 1 2)
  ∧ decode 0x03053000#32 = .command (.muldiv 0 1 2 3)
  ∧ decode 0x04040000#32 = .command (.abs 0 1)
  ∧ decode 0x05040000#32 = .command (.expw 0 1)
  ∧ decode 0x06040000#32 = .command (.poly 0 1)
  ∧ decode 0x07040000#32 = .command (.erfc 0 1)
  ∧ decode 0x03A9C000#32 = .command (.muldiv 5 2 3 4)
  ∧ (decode 0x00000000#32).instr? = none
  ∧ (decode 0xFFFFFFFF#32).instr? = none
  ∧ (decode 0x01FFF000#32).instr? = none
  ∧ (decode 0x07048000#32).instr? = none
  ∧ (decode 0x08053800#32).instr? = none

/-- Decoding the word of a command gives the command back, with every register field at every value, through the word
and through its bytes (R61, R62, R64). -/
def Obligations.DecodeOfEncode : Prop :=
  ∀ i : Instr, decode (encode i) = .command i ∧ decodeTableWord 32 (encode i).toNat = some i

/-- Each legal word is the word of the command it decodes to: no two words have one meaning (R60 to R64). -/
def Obligations.EncodeOfDecode : Prop :=
  ∀ (c : CommandWord) (i : Instr), decode c = .command i → encode i = c

/-- The encoding of R68: `opcode<<24 | d<<21 | a<<18 | b<<15 | c<<12`, with absent sources 0. -/
def Obligations.EncodeIsShiftFormula : Prop :=
  let f := fun (op d a b c : Nat) => BitVec.ofNat 32 (op <<< 24 ||| d <<< 21 ||| a <<< 18 ||| b <<< 15 ||| c <<< 12)
  ∀ d a b c : Reg,
    encode (.mulwad d a b) = f 0x01 d a b 0 ∧ encode (.divwad d a b) = f 0x02 d a b 0
    ∧ encode (.muldiv d a b c) = f 0x03 d a b c ∧ encode (.abs d a) = f 0x04 d a 0 0
    ∧ encode (.expw d a) = f 0x05 d a 0 0 ∧ encode (.poly d a) = f 0x06 d a 0 0
    ∧ encode (.erfc d a) = f 0x07 d a 0 0 ∧ encode (.cdf d a b c) = f 0x08 d a b c

/-- R64: the masks make the rows disjoint, a word that matches a row is that row's command with the register fields
of its bits, and a word that matches none is illegal. -/
def Obligations.DecodeFollowsOpcodeRows : Prop :=
  ∀ c : CommandWord,
    (∀ i j : Fin 8, c &&& opcodeTable[i].mask = opcodeTable[i].matchBits →
      c &&& opcodeTable[j].mask = opcodeTable[j].matchBits → i = j)
    ∧ (∀ i : Fin 8, c &&& opcodeTable[i].mask = opcodeTable[i].matchBits →
        decode c = .command (opcodeTable[i].build (c.extractLsb' 21 3).toFin (c.extractLsb' 18 3).toFin
          (c.extractLsb' 15 3).toFin (c.extractLsb' 12 3).toFin))
    ∧ ((∀ i : Fin 8, c &&& opcodeTable[i].mask ≠ opcodeTable[i].matchBits) → (decode c).instr? = none)

/-- R66 and R155: which words are illegal, and that issuing one completes with `0x07`, reading and writing no
register. -/
def Obligations.IllegalWords : Prop :=
  ∀ c : CommandWord,
    let op := c.extractLsb' 24 8
    ((decode c).instr? = none ↔
      op = 0x00#8 ∨ 0x09#8 ≤ op ∨ c.extractLsb' 0 12 ≠ 0#12
      ∨ (0x04#8 ≤ op ∧ op ≤ 0x07#8 ∧ c.extractLsb' 12 6 ≠ 0#6)
      ∨ ((op = 0x01#8 ∨ op = 0x02#8) ∧ c.extractLsb' 12 3 ≠ 0#3))
    ∧ ((decode c).instr? = none → ∀ (s : State) (rest : List Transaction), s.port = .issue c :: rest →
        step s = .next { s with port := rest, status := 0x07#8, reply := .code 0x07#8, faulted := true })

/-- R67: the number of legal command words is 9472. -/
def Obligations.LegalWordCount : Prop :=
  ∃ l : List CommandWord, l.Nodup ∧ l.length = 9472 ∧ ∀ c, c ∈ l ↔ ∃ i, decode c = .command i

/-- The decoder, written from the masks of R67, accepts exactly the words whose fields pass the checks of R66, which
are written apart from it. -/
def Obligations.DecodeAcceptsWellFormedFields : Prop :=
  ∀ c : CommandWord, (∃ i, decode c = .command i) ↔ (R4.ofWord c).wellFormed = true

/-! ### The port and the step -/

/-- A step whose next transaction is an `Issue` of a word that decodes to a command is that command's meaning (R44,
R64, R65); the transaction has then been taken off the port. -/
def Obligations.StepRunsDecodedCommand : Prop :=
  ∀ (s : State) (c : CommandWord) (rest : List Transaction) (i : Instr),
    s.port = .issue c :: rest → decode c = .command i → step s = exec i { s with port := rest }

/-- A command word placed as the next fetch is run by the very next step, at the state it was placed in. -/
def Obligations.FetchWordRuns : Prop :=
  ∀ (s : State) (i : Instr), step (s.withFetchWord 32 (encode i).toNat) = exec i s

/-- R42: `HostWrite(i, b)` sets `w[i]` to `b` and nothing else, for every word. -/
def Obligations.HostWriteSetsOneRegister : Prop :=
  ∀ (s : State) (i : Reg) (b : Word) (rest : List Transaction), s.port = .hostWrite i b :: rest →
    ∃ t, step s = .next t ∧ t.w[i] = b ∧ t.held[i] = true
      ∧ (∀ r : Reg, r ≠ i → t.w[r] = s.w[r] ∧ t.held[r] = s.held[r])
      ∧ t.status = s.status ∧ t.faulted = s.faulted ∧ t.readUnheld = s.readUnheld ∧ t.cfg = s.cfg
      ∧ t.port = rest ∧ t.reply = .none

/-- R43: `HostRead(i)` returns the word in `w[i]` and changes nothing (but for the ghost mark of R28, which no rule
reads), and every later read at which `w[i]` is still the same word returns the same. -/
def Obligations.HostReadReturnsWord : Prop :=
  ∀ (s : State) (i : Reg) (rest : List Transaction), s.port = .hostRead i :: rest →
    step s = .next { s with port := rest, reply := .word s.w[i], readUnheld := s.readUnheld || !s.held[i] }
    ∧ ∀ (s' : State) (rest' : List Transaction), s'.port = .hostRead i :: rest' → s'.w[i] = s.w[i] →
        ∃ t, step s' = .next t ∧ t.reply = .word s.w[i] ∧ t.w = s'.w ∧ t.held = s'.held ∧ t.status = s'.status

/-- R45: `HostStatus()` returns `STATUS` and changes nothing; after an `Issue` that returns, and after any number of
transactions that are neither an `Issue` nor a `Reset`, it returns the value that `Issue` returned. The second sentence
the spec marks as derived (from R29). -/
def Obligations.HostStatusReturnsStatus : Prop :=
  (∀ (s : State) (rest : List Transaction), s.port = .hostStatus :: rest →
    step s = .next { s with port := rest, reply := .code s.status })
  ∧ ∀ (s : State) (c : CommandWord) (between rest : List Transaction),
      (∀ x ∈ between, (∀ c', x ≠ .issue c') ∧ x ≠ .reset) → s.NextReturns →
      s.port = .issue c :: between ++ .hostStatus :: rest →
      ∃ t u, step s = .next t ∧ t.reply = .code t.status
        ∧ Sys2Proof.core.run (between.length + 1) t = .next u ∧ u.reply = t.reply ∧ u.port = rest

/-- What `HostWrite` wrote `HostRead` returns, and a read of another register is not affected (R42, R43). -/
def Obligations.ReadAfterHostWrite : Prop :=
  ∀ (s : State) (i j : Reg) (b : Word) (rest : List Transaction),
    s.port = .hostWrite i b :: .hostRead j :: rest →
    ∃ t u, step s = .next t ∧ step t = .next u ∧ u.reply = .word (if j = i then b else s.w[j])

/-- `Reset` (R180): `STATUS` is `0x00`, every register holds no value, the ghost bits are clear, the configuration is
not touched, and two in a row equal one. What the registers read as is the model's choice (log entry 1) and is not
stated. -/
def Obligations.ResetTransaction : Prop :=
  ∀ (s : State) (rest : List Transaction), s.port = .reset :: rest →
    ∃ t, step s = .next t ∧ t.status = 0x00#8 ∧ (∀ r : Reg, t.held[r] = false) ∧ t.faulted = false
      ∧ t.readUnheld = false ∧ t.cfg = s.cfg ∧ t.port = rest
      ∧ ∀ rest', rest = .reset :: rest' → step t = .next { t with port := rest' }

/-- A register persists (R187, R29): over any number of steps none of which performs a `Reset`, a `HostWrite` to it or
an `Issue` of a command whose destination it is, it keeps its word, and keeps holding a value or none. -/
def Obligations.RegisterPersists : Prop :=
  ∀ (n : Nat) (s u : State) (r : Reg), Sys2Proof.core.run n s = .next u →
    (∀ x ∈ s.port.take n, x ≠ .reset ∧ (∀ b, x ≠ .hostWrite r b)
      ∧ ∀ c i, x = .issue c → decode c = .command i → i.dest ≠ r) →
    u.w[r] = s.w[r] ∧ u.held[r] = s.held[r]

/-- The state right after reset: `STATUS` is `0x00`, no register holds a value and the ghost bits are clear (R27, R28,
R158). Two clauses are the model's choices and no rule of the spec: that nothing stands at the port (log entry 2), and
that the unit is built with the default configuration (log entries 3 and 7), which R7 only recommends. -/
def Obligations.ResetStateValues : Prop :=
  State.reset.status = 0x00#8 ∧ (∀ r : Reg, State.reset.held[r] = false) ∧ State.reset.faulted = false
  ∧ State.reset.readUnheld = false ∧ State.reset.port = [] ∧ State.reset.cfg = Config.default

/-- R29: only `HostWrite`, `Issue` and `Reset` change state; a `HostWrite` sets its register and nothing else; an
`Issue` that returns sets `STATUS`, and the destination exactly if it completes with `0x00`; `Reset` acts as R27 says;
with no transaction the state is constant. -/
def Obligations.OnlyThreeTransactionsChangeState : Prop :=
  ∀ s : State, s.NextReturns → ∃ t, step s = .next t ∧
    match s.port with
    | [] => t = s
    | .hostRead _ :: _ => t.w = s.w ∧ t.held = s.held ∧ t.status = s.status
    | .hostStatus :: _ => t.w = s.w ∧ t.held = s.held ∧ t.status = s.status
    | .hostWrite i b :: _ =>
        t.w[i] = b ∧ t.held[i] = true ∧ (∀ r : Reg, r ≠ i → t.w[r] = s.w[r] ∧ t.held[r] = s.held[r])
        ∧ t.status = s.status
    | .issue c :: _ =>
        t.reply = .code t.status ∧
        match decode c with
        | .illegal _ => t.status = 0x07#8 ∧ t.w = s.w ∧ t.held = s.held
        | .command i =>
            t.status ≠ 0x07#8
            ∧ (t.status ≠ 0x00#8 → t.w = s.w ∧ t.held = s.held)
            ∧ (t.status = 0x00#8 → t.held[i.dest] = true)
            ∧ ∀ r : Reg, r ≠ i.dest → t.w[r] = s.w[r] ∧ t.held[r] = s.held[r]
    | .reset :: _ => t.status = 0x00#8 ∧ ∀ r : Reg, t.held[r] = false

/-- Every transaction completes (R30, R186), where the unit's exponential is total, as R100 (a) requires, or the command
issued does not call it: the step neither faults nor is refused, and the transaction is gone from the port. -/
def Obligations.EveryStepCompletes : Prop :=
  ∀ s : State, s.NextReturns → ∃ t, step s = .next t ∧ (s.port ≠ [] → t.port.length < s.port.length)

/-- Transactions are performed one at a time in the host's order (R50): a step takes the first one off the port. -/
def Obligations.StepsTakePortInOrder : Prop :=
  ∀ s t : State, step s = .next t → t.port = s.port.tail

/-- No step changes the configuration: the constants are not state (R26). -/
def Obligations.StepKeepsConfiguration : Prop :=
  ∀ s t : State, step s = .next t → t.cfg = s.cfg

/-- The invariant: `STATUS` holds one of the eight codes, the ghost bit records a failed command, and a code given to
the host is the one in `STATUS`. Every step keeps it, from every state that has it (R24, R45, R158). -/
def Obligations.StepKeepsInvariant : Prop :=
  ∀ s t : State, s.Inv → step s = .next t → t.Inv

/-- The state after reset has the invariant. -/
def Obligations.ResetHasInvariant : Prop := State.reset.Inv

/-- Once a register has been read that held no value, the mark stays until a `Reset` (R158); and a step that reads
only registers that hold a value leaves no mark (R182). -/
def Obligations.ReadMarkStaysUntilReset : Prop :=
  ∀ s t : State, step s = .next t →
    (s.readUnheld = true → (∀ rest, s.port ≠ .reset :: rest) → t.readUnheld = true)
    ∧ (s.readUnheld = false → (∀ r : Reg, s.held[r] = true) → t.readUnheld = false)

/-! ### Every command -/

/-- R153 and R154, for every command: it completes, where the unit's exponential is total or the command does not call it
(R30); the code is left in `STATUS` and returned; the destination is written exactly if it is `0x00`; no other register,
not the port and not the configuration changes. The count of commands (log entry 16) goes up by one. -/
def Obligations.CommandFrame : Prop :=
  ∀ (i : Instr) (s : State), s.Returns i → ∃ t, exec i s = .next t
    ∧ t.reply = .code t.status
    ∧ (∀ r : Reg, r ≠ i.dest → t.w[r] = s.w[r] ∧ t.held[r] = s.held[r])
    ∧ (t.status ≠ 0x00#8 → t.w = s.w ∧ t.held = s.held ∧ t.faulted = true)
    ∧ (t.status = 0x00#8 → t.held[i.dest] = true ∧ t.faulted = s.faulted)
    ∧ t.port = s.port ∧ t.cfg = s.cfg ∧ t.commandCount = s.commandCount + 1

/-- The ghost mark after a command: set if it was, or if one of the command's sources holds no value (R28). The
destination needs none (R182). -/
def Obligations.CommandMarksUnheldSources : Prop :=
  ∀ (i : Instr) (s : State), s.Returns i → ∃ t, exec i s = .next t ∧
    (t.readUnheld = true ↔ s.readUnheld = true ∨ ∃ r ∈ i.sources, s.held[r] = false)

/-- The outcome of a command depends on the command, the source registers it names and the configuration alone: not on
`STATUS`, on other registers or on earlier commands (the last sentence of R14, which the spec marks as derived). For a
command that calls an exponential which breaks R100 (b) it is so at the same count of commands (log entry 16). -/
def Obligations.OutcomeDependsOnSourcesOnly : Prop :=
  ∀ (i : Instr) (s s' : State), s.Returns i → s.cfg = s'.cfg →
    (s.cfg.expwad.lawful = true ∨ usesExpwad i = false ∨ s.commandCount = s'.commandCount) → (∀ r ∈ i.sources, s.w[r] = s'.w[r]) →
    ∃ t t', exec i s = .next t ∧ exec i s' = .next t' ∧ t.status = t'.status ∧ t.reply = t'.reply
      ∧ (t.status = 0x00#8 → t.w[i.dest] = t'.w[i.dest])

/-- With the default configuration, the codes each command can complete with (the list of R151, which the spec marks
as derived from the commands' rules). -/
def Obligations.StatusCodesByCommand : Prop :=
  ∀ (i : Instr) (s : State), s.cfg = Config.default → ∃ t, exec i s = .next t ∧
    match i with
    | .mulwad _ _ _ => t.status = 0x00#8 ∨ t.status = 0x04#8
    | .divwad _ _ _ => t.status = 0x00#8 ∨ t.status = 0x04#8 ∨ t.status = 0x06#8
    | .muldiv _ _ _ _ => t.status = 0x00#8 ∨ t.status = 0x04#8 ∨ t.status = 0x06#8
    | .abs _ _ => t.status = 0x00#8 ∨ t.status = 0x05#8
    | .expw _ _ => t.status = 0x00#8 ∨ t.status = 0x04#8
    | .poly _ _ => t.status = 0x00#8 ∨ t.status = 0x04#8
    | .erfc _ _ => t.status = 0x00#8
    | .cdf _ _ _ _ => t.status = 0x00#8 ∨ t.status = 0x01#8 ∨ t.status = 0x02#8 ∨ t.status = 0x03#8

/-! ### Arithmetic -/

/-- Signs, zero and remainder of the truncated quotient, with the examples (R81, which the spec marks as derived from
the definition of `tdiv`, R10). -/
def Obligations.TruncatedQuotientLaws : Prop :=
  (∀ p d : Int, d ≠ 0 →
    ((0 ≤ p ∧ 0 < d) ∨ (p ≤ 0 ∧ d < 0) → 0 ≤ tdiv p d)
    ∧ ((0 ≤ p ∧ d < 0) ∨ (p ≤ 0 ∧ 0 < d) → tdiv p d ≤ 0)
    ∧ (tdiv p d = 0 ↔ |p| < |d|)
    ∧ tdiv (-p) d = -tdiv p d ∧ tdiv p (-d) = -tdiv p d ∧ tdiv (-p) (-d) = tdiv p d ∧ tdiv 0 d = 0
    ∧ |p - d * tdiv p d| < |d|
    ∧ (0 ≤ p → 0 ≤ p - d * tdiv p d) ∧ (p ≤ 0 → p - d * tdiv p d ≤ 0))
  ∧ tdiv 7 2 = 3 ∧ tdiv (-7) 2 = -3 ∧ tdiv 7 (-2) = -3 ∧ tdiv (-7) (-2) = 3 ∧ tdiv 1 2 = 0 ∧ tdiv (-1) 2 = 0

/-- The overflow test as D0 words it (R87, whose equivalence the spec marks as derived). `P` is the low 256 bits of
the product read as a signed value; for `x ≠ 0` and `(x, y) ≠ (-1, MIN)` the product is representable exactly if
dividing `P` by `x` recovers `y`. At the excluded pair the gloss computes MIN, and the multiply-divide raises
`ArithmeticOverflow`. -/
def Obligations.OverflowTestByDivision : Prop :=
  (∀ x y : Int, Fits x → Fits y → x ≠ 0 → ¬(x = -1 ∧ y = -2 ^ 255) →
    (Fits (x * y) ↔ tdiv (BitVec.ofInt 256 (x * y)).toInt x = y))
  ∧ (BitVec.ofInt 256 (-1 * -2 ^ 255)).toInt = -2 ^ 255
  ∧ ∀ d : Int, F_muldiv (-1) (-2 ^ 255) d = .err .arithmeticOverflow
      ∧ F_muldiv (-2 ^ 255) (-1) d = .err .arithmeticOverflow

/-- R84: `MULWAD`, its encoding, its value and its error, for all registers and operands. -/
def Obligations.MulwadWritesRescaledProduct : Prop :=
  (∀ c : CommandWord, c &&& 0xFF007FFF#32 = 0x01000000#32 → decode c = .command
    (.mulwad (c.extractLsb' 21 3).toFin (c.extractLsb' 18 3).toFin (c.extractLsb' 15 3).toFin))
  ∧ encode (.mulwad 0 1 2) = 0x01050000#32
  ∧ ∀ (s : State) (rd ra rb : Reg),
    let a := s.w[ra].toInt
    let b := s.w[rb].toInt
    ∃ t, exec (.mulwad rd ra rb) s = .next t ∧
      if Fits (a * b) then s.CompletedOk t rd (Int.tdiv (a * b) (10 ^ 18)) else s.CompletedErr t 0x04#8

/-- R86: `DIVWAD`, its encoding, its value and its two errors in their order. -/
def Obligations.DivwadWritesRescaledQuotient : Prop :=
  (∀ c : CommandWord, c &&& 0xFF007FFF#32 = 0x02000000#32 → decode c = .command
    (.divwad (c.extractLsb' 21 3).toFin (c.extractLsb' 18 3).toFin (c.extractLsb' 15 3).toFin))
  ∧ encode (.divwad 0 1 2) = 0x02050000#32
  ∧ ∀ (s : State) (rd ra rb : Reg),
    let a := s.w[ra].toInt
    let b := s.w[rb].toInt
    ∃ t, exec (.divwad rd ra rb) s = .next t ∧
      if ¬Fits (a * 10 ^ 18) then s.CompletedErr t 0x04#8
      else if b = 0 then s.CompletedErr t 0x06#8
      else s.CompletedOk t rd (Int.tdiv (a * 10 ^ 18) b)

/-- R88: `MULDIV`, its encoding, its value and its three errors in their order. -/
def Obligations.MuldivWritesQuotient : Prop :=
  (∀ c : CommandWord, c &&& 0xFF000FFF#32 = 0x03000000#32 → decode c = .command
    (.muldiv (c.extractLsb' 21 3).toFin (c.extractLsb' 18 3).toFin (c.extractLsb' 15 3).toFin
      (c.extractLsb' 12 3).toFin))
  ∧ encode (.muldiv 0 1 2 3) = 0x03053000#32
  ∧ ∀ (s : State) (rd ra rb rc : Reg),
    let a := s.w[ra].toInt
    let b := s.w[rb].toInt
    let d := s.w[rc].toInt
    ∃ t, exec (.muldiv rd ra rb rc) s = .next t ∧
      if ¬Fits (a * b) then s.CompletedErr t 0x04#8
      else if d = 0 then s.CompletedErr t 0x06#8
      else if a * b = -2 ^ 255 ∧ d = -1 then s.CompletedErr t 0x04#8
      else s.CompletedOk t rd (Int.tdiv (a * b) d)

/-- `ABS` (R91), its encoding, its value and its error; and R90, which the spec marks as derived: the result is in
[0, MAX], so its word reads the same signed and unsigned. -/
def Obligations.AbsWritesMagnitude : Prop :=
  (∀ c : CommandWord, c &&& 0xFF03FFFF#32 = 0x04000000#32 → decode c = .command
    (.abs (c.extractLsb' 21 3).toFin (c.extractLsb' 18 3).toFin))
  ∧ encode (.abs 0 1) = 0x04040000#32
  ∧ ∀ (s : State) (rd ra : Reg),
    let a := s.w[ra].toInt
    ∃ t, exec (.abs rd ra) s = .next t ∧
      if a = -2 ^ 255 then s.CompletedErr t 0x05#8
      else s.CompletedOk t rd |a| ∧ |a| ≤ 2 ^ 255 - 1 ∧ (t.w[rd].toNat : Int) = |a|

/-! ### The exponentiator -/

/-- R100, for every exponential that is not marked as breaking it, the unknown functions of `Expwad.free` among them:
whatever the operand, it answers a representable value or `ArithmeticOverflow` ((a) and (c)), and the same in every state
of every unit built with it ((b)). One that breaks (b) or (c) alone still answers (U5). -/
def Obligations.ExpwadMeetsContract : Prop :=
  (∀ (c : Config) (k : Int), c.expwad.lawful = true →
    (∃ v, F_exp c k = .ok v ∧ Fits v) ∨ F_exp c k = .err .arithmeticOverflow)
  ∧ (∀ (s s' : State) (k : Int), s.cfg.expwad.lawful = true → s.cfg.expwad = s'.cfg.expwad →
      F_exp s.cfgNow k = F_exp s'.cfgNow k)
  ∧ ∀ (c : Config) (k : Int), c.expwad.total = true →
      (∃ v, F_exp c k = .ok v ∧ Fits v) ∨ ∃ e, F_exp c k = .err e

/-- R101: `EXPWAD_REF`, the exponential of the default configuration, is the real exponential correctly rounded toward
zero, for every operand: with `y = 10^18 * e^(k / 10^18)`, which is positive, and `v` its floor, it is `v`, or
`ArithmeticOverflow` if `v` exceeds MAX. -/
def Obligations.ExpwadRefIsFloorOfExp : Prop :=
  ∀ k : Int,
    let y : ℝ := 10 ^ 18 * Real.exp ((k : ℝ) / 10 ^ 18)
    0 < y
    ∧ expwadRef k = (if 2 ^ 255 - 1 < ⌊y⌋ then .err .arithmeticOverflow else .ok ⌊y⌋)
    ∧ F_exp Config.default k = expwadRef k

/-- Where `EXPWAD_REF` is 0, where it overflows, and its sample values (R102, which the spec marks as derived from
R101 by evaluation). -/
def Obligations.ExpwadRefThresholds : Prop :=
  (∀ k : Int, expwadRef k = .ok 0 ↔ k ≤ -41446531673892822313)
  ∧ (∀ k : Int, expwadRef k = .err .arithmeticOverflow ↔ 135305999368893231590 ≤ k)
  ∧ expwadRef 0 = .ok 1000000000000000000
  ∧ expwadRef (-41446531673892822312) = .ok 1
  ∧ expwadRef 135305999368893231589
      = .ok 57896044618658097707712807547600434460894277218426047864535176624857265142719
  ∧ expwadRef 1 = .ok 1000000000000000001
  ∧ expwadRef (-1) = .ok 999999999999999999
  ∧ expwadRef 1000000000000000000 = .ok 2718281828459045235
  ∧ expwadRef (-1000000000000000000) = .ok 367879441171442321
  ∧ expwadRef 2000000000000000000 = .ok 7389056098930650227
  ∧ expwadRef (-2000000000000000000) = .ok 135335283236612691
  ∧ expwadRef 30000000000 = .ok 1000000030000000450
  ∧ expwadRef (-880777111842357385) = .ok 414460704180753595
  ∧ expwadRef (-35797482889674696671) = .ok 284
  ∧ expwadRef (-41000000000000000000) = .ok 1
  ∧ expwadRef 10000000000000000000 = .ok 22026465794806716516957
  ∧ expwadRef (-2 ^ 255) = .ok 0
  ∧ expwadRef (2 ^ 255 - 1) = .err .arithmeticOverflow

/-- The six named properties of R106, which the spec marks as derived, of `EXPWAD_REF`: EXP-NONNEG, EXP-ZERO, EXP-MONO,
EXP-LE-ONE, EXP-DEFINED up to 135305999368893231589, and EXP-ACCURATE. -/
def Obligations.ExpwadRefNamedProperties : Prop :=
  (∀ k v : Int, expwadRef k = .ok v → 0 ≤ v)
  ∧ expwadRef 0 = .ok (10 ^ 18)
  ∧ (∀ k l u v : Int, k ≤ l → expwadRef k = .ok u → expwadRef l = .ok v → u ≤ v)
  ∧ (∀ k l v : Int, k ≤ l → expwadRef l = .ok v → ∃ u, expwadRef k = .ok u)
  ∧ (∀ k v : Int, k ≤ 0 → expwadRef k = .ok v → v ≤ 10 ^ 18)
  ∧ (∀ k : Int, k ≤ 135305999368893231589 → ∃ v, expwadRef k = .ok v)
  ∧ ∀ k v : Int, expwadRef k = .ok v →
      0 ≤ 10 ^ 18 * Real.exp ((k : ℝ) / 10 ^ 18) - v ∧ 10 ^ 18 * Real.exp ((k : ℝ) / 10 ^ 18) - v < 1

/-- `EXPW` (R105), its encoding, its value and its error under every configuration, and the thresholds, corner cases
and example under `EXPWAD_REF`. One clause is the model's choice and no rule of the spec (log entry 11): where the
exponential breaks R100 (c), which 93_implementation_defined.md U5 allows, an error other than `ArithmeticOverflow` ends
the command with its own code, after the common execution sequence of R65. Where the exponential is not total, the command
may be stuck instead (`OnlyNontotalExpwadStops`). -/
def Obligations.ExpwWritesExponential : Prop :=
  (∀ c : CommandWord, c &&& 0xFF03FFFF#32 = 0x05000000#32 → decode c = .command
    (.expw (c.extractLsb' 21 3).toFin (c.extractLsb' 18 3).toFin))
  ∧ encode (.expw 0 1) = 0x05040000#32
  ∧ ∀ (s : State) (rd ra : Reg),
    let k := s.w[ra].toInt
    s.Returns (.expw rd ra) → ∃ t, exec (.expw rd ra) s = .next t
      ∧ (∀ v, F_exp s.cfgNow k = .ok v → s.CompletedOk t rd v)
      ∧ (∀ e, F_exp s.cfgNow k = .err e → s.CompletedErr t (code e))
      ∧ (∀ e, F_exp s.cfgNow k = .err e → s.cfg.expwad.lawful = true → s.CompletedErr t 0x04#8)
      ∧ (s.cfg.expwad = .ref →
          (135305999368893231590 ≤ k → s.CompletedErr t 0x04#8)
          ∧ (k < 135305999368893231590 → ∃ v : Int, 0 ≤ v ∧ s.CompletedOk t rd v)
          ∧ (k ≤ -41446531673892822313 → s.CompletedOk t rd 0)
          ∧ (k = 0 → s.CompletedOk t rd (10 ^ 18))
          ∧ (k = 1000000000000000000 → s.CompletedOk t rd 2718281828459045235))

/-! ### The polynomial evaluator -/

/-- R112: `F_poly` is the Horner chain of nine truncated products and eight sums, each range-checked, with the first
that does not fit ending it. -/
def Obligations.PolyIsHornerChain : Prop :=
  ∀ (c : Config) (t : Int),
    let m := fun s : Int => Int.tdiv (t * s) (10 ^ 18)
    let s1 := c.I + m c.J
    let s2 := c.H + m s1
    let s3 := c.G + m s2
    let inner := c.F + m s3
    let s5 := c.E + m inner
    let s6 := c.D + m s5
    let s7 := c.C + m s6
    let outer := c.B + m s7
    F_poly c t =
      if Fits (t * c.J) ∧ Fits s1 ∧ Fits (t * s1) ∧ Fits s2 ∧ Fits (t * s2) ∧ Fits s3 ∧ Fits (t * s3) ∧ Fits inner
          ∧ Fits (t * inner) ∧ Fits s5 ∧ Fits (t * s5) ∧ Fits s6 ∧ Fits (t * s6) ∧ Fits s7 ∧ Fits (t * s7)
          ∧ Fits outer ∧ Fits (t * outer)
      then .ok (m outer) else .err .arithmeticOverflow

/-- Facts about `F_poly` under an admissible configuration (R113, which the spec marks as derived): 0 gives 0; WAD
gives the sum of the coefficients B to J; no error for `0 ≤ t ≤ WAD`; a sum never overflows, only a product does. With
the defaults `±10^23` overflow and `±10^22` do not. -/
def Obligations.PolyOnUnitInterval : Prop :=
  (∀ c : Config, c.admissible = true →
    F_poly c 0 = .ok 0
    ∧ F_poly c (10 ^ 18) = .ok (c.B + c.C + c.D + c.E + c.F + c.G + c.H + c.I + c.J)
    ∧ (∀ t : Int, 0 ≤ t → t ≤ 10 ^ 18 → ∃ v : Int, F_poly c t = .ok v ∧ |v| ≤ 18 * 10 ^ 18)
    ∧ ∀ t coeff s : Int, |coeff| ≤ 2 * 10 ^ 18 → Fits (t * s) → Fits (coeff + Int.tdiv (t * s) (10 ^ 18)))
  ∧ F_poly Config.default (10 ^ 18) = .ok 1265512260000000000
  ∧ F_poly Config.default (10 ^ 23) = .err .arithmeticOverflow
  ∧ F_poly Config.default (-10 ^ 23) = .err .arithmeticOverflow
  ∧ F_poly Config.default (10 ^ 22) = .ok 170790569661023523904944216221599196236800000000000000
  ∧ F_poly Config.default (-10 ^ 22) = .ok (-170955000109293931868669977346780804236800000000000000)

/-- R114: `POLY`, its encoding, its value and its error under every configuration, and the corner cases and example
with the default one. -/
def Obligations.PolyWritesStep : Prop :=
  (∀ c : CommandWord, c &&& 0xFF03FFFF#32 = 0x06000000#32 → decode c = .command
    (.poly (c.extractLsb' 21 3).toFin (c.extractLsb' 18 3).toFin))
  ∧ encode (.poly 0 1) = 0x06040000#32
  ∧ ∀ (s : State) (rd ra : Reg),
    let x := s.w[ra].toInt
    ∃ t, exec (.poly rd ra) s = .next t
      ∧ (∀ v, F_poly s.cfg x = .ok v → s.CompletedOk t rd v)
      ∧ (∀ e, F_poly s.cfg x = .err e → s.CompletedErr t 0x04#8)
      ∧ (s.cfg.admissible = true → 0 ≤ x → x ≤ 10 ^ 18 → t.status = 0x00#8)
      ∧ (s.cfg = Config.default →
          (∀ p ∈ ([(0, 0), (1, 1), (-1, -1), (10 ^ 18, 1265512260000000000), (-10 ^ 18, -4804616880000000000),
              (2 * 10 ^ 18, 5106721920000000000), (733446056389782958, 913051235792489313)] : List (Int × Int)),
            x = p.1 → s.CompletedOk t rd p.2)
          ∧ ∀ x' ∈ ([10 ^ 23, 10 ^ 30, 2 ^ 255 - 1, -2 ^ 255] : List Int), x = x' → s.CompletedErr t 0x04#8)

/-! ### The complementary error function -/

/-- R115: `F_erfc` is the eight steps: the inclusive shortcuts, `t` from two truncated quotients, `F_poly`, the
exponent, the exponential, the rescaled product and the sign branch; the first step that fails, or does not return,
decides. -/
def Obligations.ErfcIsEightSteps : Prop :=
  ∀ (c : Config) (x : Int),
    let z := |x|
    let t := Int.tdiv (10 ^ 36) (10 ^ 18 + Int.tdiv (z * 10 ^ 18) (2 * 10 ^ 18))
    F_erfc c x =
      if 5900000000000000000 ≤ x then .ok 0
      else if x ≤ -5900000000000000000 then .ok (2 * 10 ^ 18)
      else match F_poly c t with
        | .err e => .err e
        | .noReturn => .noReturn
        | .ok step =>
          let v := -Int.tdiv (z * z) (10 ^ 18) - c.A
          let k := v + step
          if ¬(Fits v ∧ Fits k) then .err .arithmeticOverflow
          else match F_exp c k with
            | .err e => .err e
            | .noReturn => .noReturn
            | .ok e =>
              let r := Int.tdiv (t * e) (10 ^ 18)
              if ¬Fits (t * e) then .err .arithmeticOverflow
              else if 0 ≤ x then .ok r
              else if Fits (2 * 10 ^ 18 - r) then .ok (2 * 10 ^ 18 - r)
              else .err .arithmeticOverflow

/-- The point symmetry of ERFC (R118, where the spec marks it as derived from R115), exact for every input but zero
and under every configuration; with the default one it holds for every word but 0 and MIN, fails at 0, and `F_erfc` is
not monotone across zero. -/
def Obligations.ErfcPointSymmetry : Prop :=
  (∀ (c : Config) (x u v : Int), x ≠ 0 → F_erfc c x = .ok u → F_erfc c (-x) = .ok v → v = 2 * 10 ^ 18 - u)
  ∧ (∀ x : Int, Fits x → x ≠ 0 → x ≠ -2 ^ 255 →
      ∃ u, F_erfc Config.default x = .ok u ∧ F_erfc Config.default (-x) = .ok (2 * 10 ^ 18 - u))
  ∧ F_erfc Config.default 0 = .ok 1000000030000000450
  ∧ F_erfc Config.default (-1) = .ok 999999969999999550

/-- ERFC is total and in range with the default configuration: every operand completes with `0x00` and a value in
[0, 2*WAD] (R119, which the spec marks as derived, and the property R120 names ERFC-RANGE and leaves unproved). -/
def Obligations.ErfcTotalInRange : Prop :=
  ∀ (s : State) (rd ra : Reg), s.cfg = Config.default →
    ∃ (t : State) (v : Int), exec (.erfc rd ra) s = .next t ∧ s.CompletedOk t rd v ∧ 0 ≤ v ∧ v ≤ 2 * 10 ^ 18

/-- The worked trace of R122, which the spec marks as derived, with the default configuration: the intermediates of
the eight steps at `z = 726853573723653572`, and the result for both signs of the input. -/
def Obligations.ErfcWorkedTrace : Prop :=
  let z : Int := 726853573723653572
  erfcT z = .ok 733446056389782958
  ∧ F_poly Config.default 733446056389782958 = .ok 913051235792489313
  ∧ F_mulwad z z = .ok 528316117634846698
  ∧ erfcExponent Config.default z 913051235792489313 = .ok (-880777111842357385)
  ∧ F_exp Config.default (-880777111842357385) = .ok 414460704180753595
  ∧ F_mulwad 733446056389782958 414460704180753595 = .ok 303984569009906154
  ∧ F_erfc Config.default z = .ok 303984569009906154
  ∧ F_erfc Config.default (-z) = .ok 1696015430990093846

/-- R121: `ERFC`, its encoding, its value and its error under every configuration, the one possible error where the
exponential meets R100, and the corner cases and example with the default configuration. Where the exponential is not
total, the command may be stuck instead (`OnlyNontotalExpwadStops`). -/
def Obligations.ErfcWritesResult : Prop :=
  (∀ c : CommandWord, c &&& 0xFF03FFFF#32 = 0x07000000#32 → decode c = .command
    (.erfc (c.extractLsb' 21 3).toFin (c.extractLsb' 18 3).toFin))
  ∧ encode (.erfc 0 1) = 0x07040000#32
  ∧ ∀ (s : State) (rd ra : Reg),
    let x := s.w[ra].toInt
    s.Returns (.erfc rd ra) ∨ 5900000000000000000 ≤ x ∨ x ≤ -5900000000000000000 → ∃ t, exec (.erfc rd ra) s = .next t
      ∧ (∀ v, F_erfc s.cfgNow x = .ok v → s.CompletedOk t rd v)
      ∧ (∀ e, F_erfc s.cfgNow x = .err e → s.CompletedErr t (code e))
      ∧ (∀ e, F_erfc s.cfgNow x = .err e → s.cfg.expwad.lawful = true → s.CompletedErr t 0x04#8)
      ∧ (5900000000000000000 ≤ x → s.CompletedOk t rd 0)
      ∧ (x ≤ -5900000000000000000 → s.CompletedOk t rd (2 * 10 ^ 18))
      ∧ (s.cfg = Config.default → t.status = 0x00#8
          ∧ ∀ p ∈ ([(5899999999999999999, 71), (-5899999999999999999, 1999999999999999929),
              (0, 1000000030000000450), (1, 1000000030000000450), (-1, 999999969999999550),
              (10 ^ 18, 157299212239993275)] : List (Int × Int)), x = p.1 → s.CompletedOk t rd p.2)

/-! ### The CDF wrapper -/

/-- R130: `F_cdf` is the four steps: validation, the change of variable with one truncation, `F_erfc`, the rescale. -/
def Obligations.CdfIsFourSteps : Prop :=
  ∀ (c : Config) (x mu sigma : Int),
    let den := c.SQRT2 * sigma
    F_cdf c x mu sigma =
      if x < -10 ^ 23 ∨ 10 ^ 23 < x then .err .xOutOfBounds
      else if mu < -10 ^ 20 ∨ 10 ^ 20 < mu then .err .muOutOfBounds
      else if sigma ≤ 0 ∨ 10 ^ 19 < sigma then .err .sigmaOutOfBounds
      else if ¬Fits den then .err .arithmeticOverflow
      else if den = 0 then .err .divideByZero
      else match F_erfc c (-Int.tdiv ((x - mu) * 10 ^ 36) den) with
        | .err e => .err e
        | .noReturn => .noReturn
        | .ok e =>
          if Fits (10 ^ 18 * e) then .ok (Int.tdiv (10 ^ 18 * e) (2 * 10 ^ 18)) else .err .arithmeticOverflow

/-- R131: validation is in the order x, mu, sigma, the first violated bound alone is reported, whatever the
configuration, and operands within their bounds report none of the three where the exponential meets R100 (c). -/
def Obligations.CdfValidationOrder : Prop :=
  ∀ (s : State) (rd ra rb rc : Reg),
    let x := s.w[ra].toInt
    let mu := s.w[rb].toInt
    let sigma := s.w[rc].toInt
    s.Returns (.cdf rd ra rb rc) ∨ ¬CdfValid x mu sigma → ∃ t, exec (.cdf rd ra rb rc) s = .next t ∧
      if x < -10 ^ 23 ∨ 10 ^ 23 < x then s.CompletedErr t 0x01#8
      else if mu < -10 ^ 20 ∨ 10 ^ 20 < mu then s.CompletedErr t 0x02#8
      else if sigma ≤ 0 ∨ 10 ^ 19 < sigma then s.CompletedErr t 0x03#8
      else s.cfg.expwad.lawful = true → t.status ≠ 0x01#8 ∧ t.status ≠ 0x02#8 ∧ t.status ≠ 0x03#8

/-- CDF is total and in range past validation with the default configuration (R135, which the spec marks as derived,
and R136): it completes with `0x00`, its value is half of the ERFC value at `negatedZ` rounded down, and it lies in
[0, WAD]. -/
def Obligations.CdfTotalInUnitRange : Prop :=
  ∀ (s : State) (rd ra rb rc : Reg), s.cfg = Config.default →
    CdfValid s.w[ra].toInt s.w[rb].toInt s.w[rc].toInt →
    ∃ (t : State) (e v : Int), exec (.cdf rd ra rb rc) s = .next t ∧ s.CompletedOk t rd v
      ∧ F_erfc Config.default
          (-Int.tdiv ((s.w[ra].toInt - s.w[rb].toInt) * 10 ^ 36) (1414213562373095048 * s.w[rc].toInt)) = .ok e
      ∧ v = e / 2 ∧ 0 ≤ v ∧ v ≤ 10 ^ 18

/-- At the mean (R136): for every valid mu and sigma and every admissible configuration whose `F_erfc` at 0 is a
value in [0, 2*WAD], `F_cdf(mu, mu, sigma)` is half of that value; with the defaults it is 500000015000000225. And
CDF is not monotone across the mean. -/
def Obligations.CdfAtMean : Prop :=
  (∀ (c : Config) (mu sigma e : Int), c.admissible = true → CdfValid mu mu sigma → F_erfc c 0 = .ok e →
    0 ≤ e → e ≤ 2 * 10 ^ 18 → F_cdf c mu mu sigma = .ok (Int.tdiv e 2))
  ∧ (∀ mu sigma : Int, CdfValid mu mu sigma → F_cdf Config.default mu mu sigma = .ok 500000015000000225)
  ∧ F_cdf Config.default 2 0 (10 ^ 18) = .ok 499999984999999775

/-- Saturation (R140, which the spec marks as derived): under every admissible configuration, operands whose
`negatedZ` is at least 5.9 give exactly 0 and operands whose `negatedZ` is at most -5.9 give exactly WAD. -/
def Obligations.CdfSaturates : Prop :=
  ∀ (s : State) (rd ra rb rc : Reg), s.cfg.admissible = true →
    CdfValid s.w[ra].toInt s.w[rb].toInt s.w[rc].toInt →
    let q := Int.tdiv ((s.w[ra].toInt - s.w[rb].toInt) * 10 ^ 36) (s.cfg.SQRT2 * s.w[rc].toInt)
    ∃ t, exec (.cdf rd ra rb rc) s = .next t
      ∧ (5900000000000000000 ≤ -q → s.CompletedOk t rd 0)
      ∧ (-q ≤ -5900000000000000000 → s.CompletedOk t rd (10 ^ 18))

/-- R137: `CDF`, its encoding, its value and its errors under every configuration, the errors it cannot end with where the
exponential meets R100, and the corner cases and example with the default configuration. Where the exponential is not
total, the command may be stuck instead (`OnlyNontotalExpwadStops`). -/
def Obligations.CdfWritesResult : Prop :=
  (∀ c : CommandWord, c &&& 0xFF000FFF#32 = 0x08000000#32 → decode c = .command
    (.cdf (c.extractLsb' 21 3).toFin (c.extractLsb' 18 3).toFin (c.extractLsb' 15 3).toFin
      (c.extractLsb' 12 3).toFin))
  ∧ encode (.cdf 0 1 2 3) = 0x08053000#32
  ∧ ∀ (s : State) (rd ra rb rc : Reg),
    let x := s.w[ra].toInt
    let mu := s.w[rb].toInt
    let sigma := s.w[rc].toInt
    s.Returns (.cdf rd ra rb rc) → ∃ t, exec (.cdf rd ra rb rc) s = .next t
      ∧ (∀ v, F_cdf s.cfgNow x mu sigma = .ok v → s.CompletedOk t rd v)
      ∧ (F_cdf s.cfgNow x mu sigma = .err .xOutOfBounds → s.CompletedErr t 0x01#8)
      ∧ (F_cdf s.cfgNow x mu sigma = .err .muOutOfBounds → s.CompletedErr t 0x02#8)
      ∧ (F_cdf s.cfgNow x mu sigma = .err .sigmaOutOfBounds → s.CompletedErr t 0x03#8)
      ∧ (F_cdf s.cfgNow x mu sigma = .err .arithmeticOverflow → s.CompletedErr t 0x04#8)
      ∧ (F_cdf s.cfgNow x mu sigma = .err .minValueUnrepresentable →
          s.CompletedErr t 0x05#8 ∧ s.cfg.expwad.lawful = false)
      ∧ (F_cdf s.cfgNow x mu sigma = .err .divideByZero →
          s.CompletedErr t 0x06#8 ∧ (s.cfg.SQRT2 = 0 ∨ s.cfg.expwad.lawful = false))
      ∧ (x = -2 ^ 255 ∨ x = 2 ^ 255 - 1 ∨ mu = -2 ^ 255 ∨ mu = 2 ^ 255 - 1 ∨ sigma = -2 ^ 255 ∨ sigma = 2 ^ 255 - 1 →
          t.status = 0x01#8 ∨ t.status = 0x02#8 ∨ t.status = 0x03#8)
      ∧ (s.cfg = Config.default → CdfValid x mu sigma → t.status = 0x00#8
          ∧ (x = mu → s.CompletedOk t rd 500000015000000225)
          ∧ (5900000000000000000 ≤ -Int.tdiv ((x - mu) * 10 ^ 36) (1414213562373095048 * sigma) →
              s.CompletedOk t rd 0)
          ∧ (-Int.tdiv ((x - mu) * 10 ^ 36) (1414213562373095048 * sigma) ≤ -5900000000000000000 →
              s.CompletedOk t rd (10 ^ 18))
          ∧ (mu = 0 → sigma = 10 ^ 18 →
              (s.CompletedOk t rd (10 ^ 18) ↔ 8343860018001260784 ≤ x)
              ∧ (s.CompletedOk t rd 0 ↔ x ≤ -8343860018001260784))
          ∧ (sigma = 1 → x - mu = 1 → s.CompletedOk t rd 841344738604325374)
          ∧ (sigma = 10 ^ 18 → x - mu = 10 ^ 18 → s.CompletedOk t rd 841344738604325374))
      ∧ (s.cfg = Config.default →
          ∀ p ∈ ([(8343860018001260784, 0, 10 ^ 18, 10 ^ 18), (8343860018001260783, 0, 10 ^ 18, 999999999999999964),
              (-8343860018001260784, 0, 10 ^ 18, 0), (-8343860018001260783, 0, 10 ^ 18, 35),
              (1, 0, 1, 841344738604325374), (10 ^ 18, 0, 10 ^ 18, 841344738604325374),
              (1, 1, 1, 500000015000000225)] : List (Int × Int × Int × Int)),
            x = p.1 → mu = p.2.1 → sigma = p.2.2.1 → s.CompletedOk t rd p.2.2.2)

/-- D0's concrete scenario, traced with the default configuration (R138, a trace the spec marks as derived). -/
def Obligations.CdfConcreteScenario : Prop :=
  let x : Int := 94795555220257870000
  let mu : Int := 94450098392546580000
  let sigma : Int := 336071630260317300
  x - mu = 345456827711290000
  ∧ Config.default.SQRT2 * sigma = 475277057442976977106633935538730400
  ∧ Int.tdiv (345456827711290000 * 10 ^ 36) 475277057442976977106633935538730400 = 726853573723653572
  ∧ F_erfc Config.default (-726853573723653572) = .ok 1696015430990093846
  ∧ Int.tdiv (10 ^ 18 * 1696015430990093846) (2 * 10 ^ 18) = 848007715495046923
  ∧ F_cdf Config.default x mu sigma = .ok 848007715495046923

/-- R139: D0's error scenarios, as words. -/
def Obligations.CdfErrorScenarios : Prop :=
  ∀ c : Config,
    F_cdf c 100001000000000000000000 0 (10 ^ 18) = .err .xOutOfBounds
    ∧ F_cdf c (-100001000000000000000000) 0 (10 ^ 18) = .err .xOutOfBounds
    ∧ F_cdf c 0 101000000000000000000 (10 ^ 18) = .err .muOutOfBounds
    ∧ F_cdf c 0 (-101000000000000000000) (10 ^ 18) = .err .muOutOfBounds
    ∧ F_cdf c 0 (10 ^ 18) 11000000000000000000 = .err .sigmaOutOfBounds
    ∧ F_cdf c 0 (10 ^ 18) 0 = .err .sigmaOutOfBounds

/-! ### Several units, bytes, and the harness -/

/-- Units share nothing (R165): a step of one unit changes no other, and steps of two units that both return give the
same system in either order. -/
def Obligations.UnitsAreIndependent : Prop :=
  ∀ (n : Nat) (sys : System n) (i j : Fin n), i ≠ j → sys[i].NextReturns → sys[j].NextReturns →
    ∃ a b ab : System n, sys.stepUnit i = .next a ∧ sys.stepUnit j = .next b
      ∧ a[j] = sys[j] ∧ step sys[i] = .next a[i]
      ∧ a.stepUnit j = .next ab ∧ b.stepUnit i = .next ab

/-- The byte images of a word and of a command (R47): 32 and 4 bytes, byte `i` of a word holds bits `255 - 8*i` down
to `248 - 8*i` and byte `i` of a command bits `31 - 8*i` down to `24 - 8*i`, reading the bytes of a word gives it
back, and a negative value begins with a byte whose top bit is set (log entry 12: two's complement there is the spec's
general knowledge). -/
def Obligations.WordBytesAreBigEndian : Prop :=
  (∀ c : CommandWord, (bytesOfCommand c).length = 4
    ∧ ∀ i : Nat, i < 4 → (bytesOfCommand c)[i]? = some (c.extractLsb' (24 - 8 * i) 8))
  ∧ ∀ b : Word, (bytesOfWord b).length = 32
    ∧ (∀ i : Nat, i < 32 → (bytesOfWord b)[i]? = some (b.extractLsb' (248 - 8 * i) 8))
    ∧ wordOfBytes (bytesOfWord b) = some b
    ∧ (b.toInt < 0 → ∃ x rest, bytesOfWord b = x :: rest ∧ 0x80#8 ≤ x)

/-- The vector files (R48): `96 * N` and `32 * N` bytes with no header; triple `i` stands in bytes `96 * i` to `96 * i
+ 95`, x first, then mu, then sigma, and result `i` in bytes `32 * i` to `32 * i + 31`; reading a file of known `N`
gives its elements back. -/
def Obligations.VectorFilesLayout : Prop :=
  (∀ ts : List InputTriple, (bytesOfInput ts).length = 96 * ts.length
    ∧ (∀ (i : Nat) (e : InputTriple), ts[i]? = some e →
        ((bytesOfInput ts).drop (96 * i)).take 32 = bytesOfWord e.x
        ∧ ((bytesOfInput ts).drop (96 * i + 32)).take 32 = bytesOfWord e.mu
        ∧ ((bytesOfInput ts).drop (96 * i + 64)).take 32 = bytesOfWord e.sigma)
    ∧ inputOfBytes ts.length (bytesOfInput ts) = some ts)
  ∧ ∀ rs : List Word, (bytesOfOutput rs).length = 32 * rs.length
    ∧ (∀ (i : Nat) (b : Word), rs[i]? = some b → ((bytesOfOutput rs).drop (32 * i)).take 32 = bytesOfWord b)
    ∧ outputOfBytes rs.length (bytesOfOutput rs) = some rs

/-- One element of an `input` file through the port (R48, R183): the transactions of a harness, from any state with
the default configuration and for any operands within their bounds, end with a `HostRead` that returns the word of
`F_cdf`, and leave the mark of R28 as it was. -/
def Obligations.HarnessElementReadsCdf : Prop :=
  ∀ (s : State) (e : InputTriple) (rest : List Transaction), s.cfg = Config.default →
    CdfValid e.x.toInt e.mu.toInt e.sigma.toInt → s.port = harnessElement e ++ rest →
    ∃ (u : State) (b : Word), Sys2Proof.core.run 5 s = .next u ∧ u.reply = .word b
      ∧ F_cdf Config.default e.x.toInt e.mu.toInt e.sigma.toInt = .ok b.toInt
      ∧ u.status = 0x00#8 ∧ u.port = rest ∧ u.readUnheld = s.readUnheld

/-! ### Outside the contract of the exponential -/

/-- The one way for a step to stop (93_implementation_defined.md U5): an `Issue` of `EXPW`, `ERFC` or `CDF` in a unit
whose exponential is not total; and each of the three is stuck exactly if its function does not return. -/
def Obligations.OnlyNontotalExpwadStops : Prop :=
  (∀ s : State, (∃ t, step s = .next t)
    ∨ (step s = .fault .expwadDoesNotReturn ∧ s.cfg.expwad.total = false
        ∧ ∃ c i rest, s.port = .issue c :: rest ∧ decode c = .command i ∧ usesExpwad i = true))
  ∧ ∀ (s : State) (rd ra rb rc : Reg),
      (exec (.expw rd ra) s = .fault .expwadDoesNotReturn ↔ F_exp s.cfgNow s.w[ra].toInt = .noReturn)
      ∧ (exec (.erfc rd ra) s = .fault .expwadDoesNotReturn ↔ F_erfc s.cfgNow s.w[ra].toInt = .noReturn)
      ∧ (exec (.cdf rd ra rb rc) s = .fault .expwadDoesNotReturn
          ↔ F_cdf s.cfgNow s.w[ra].toInt s.w[rb].toInt s.w[rc].toInt = .noReturn)
end

