-- ==== Sys2Proof/Laws/State.lean ====
section
/-! SUPPORT. Laws/State.lean: one lemma for each field and each update of the state, and the spec lemmas of the
shared operations (`writeReg`, `noteReads`, `complete`, `finish`, `command`). -/

namespace Sys2Proof.Machine

/-! ### writeReg -/

section WriteReg
variable (s : State) (i : Reg) (b : Word)

@[simp] theorem writeReg_w : (s.writeReg i b).w = s.w.set i b := rfl
@[simp] theorem writeReg_held : (s.writeReg i b).held = s.held.set i true := rfl
@[simp] theorem writeReg_status : (s.writeReg i b).status = s.status := rfl
@[simp] theorem writeReg_faulted : (s.writeReg i b).faulted = s.faulted := rfl
@[simp] theorem writeReg_readUnheld : (s.writeReg i b).readUnheld = s.readUnheld := rfl
@[simp] theorem writeReg_port : (s.writeReg i b).port = s.port := rfl
@[simp] theorem writeReg_reply : (s.writeReg i b).reply = s.reply := rfl
@[simp] theorem writeReg_cfg : (s.writeReg i b).cfg = s.cfg := rfl
@[simp] theorem writeReg_commandCount : (s.writeReg i b).commandCount = s.commandCount := rfl

@[simp] theorem regWord_writeReg_self : (s.writeReg i b).regWord i = b := by
  simp [State.regWord]

@[simp] theorem holds_writeReg_self : (s.writeReg i b).holds i = true := by
  simp [State.holds]

variable {i}

theorem regWord_writeReg_ne {j : Reg} (h : j ≠ i) : (s.writeReg i b).regWord j = s.regWord j := by
  have h' : (i : Nat) ≠ (j : Nat) := fun e => h (Fin.ext e.symm)
  simp [State.regWord, h']

theorem holds_writeReg_ne {j : Reg} (h : j ≠ i) : (s.writeReg i b).holds j = s.holds j := by
  have h' : (i : Nat) ≠ (j : Nat) := fun e => h (Fin.ext e.symm)
  simp [State.holds, h']

end WriteReg

/-! ### noteReads -/

section NoteReads
variable (s : State) (rs : List Reg)

@[simp] theorem noteReads_w : (s.noteReads rs).w = s.w := rfl
@[simp] theorem noteReads_held : (s.noteReads rs).held = s.held := rfl
@[simp] theorem noteReads_status : (s.noteReads rs).status = s.status := rfl
@[simp] theorem noteReads_faulted : (s.noteReads rs).faulted = s.faulted := rfl
@[simp] theorem noteReads_port : (s.noteReads rs).port = s.port := rfl
@[simp] theorem noteReads_reply : (s.noteReads rs).reply = s.reply := rfl
@[simp] theorem noteReads_cfg : (s.noteReads rs).cfg = s.cfg := rfl
@[simp] theorem noteReads_commandCount : (s.noteReads rs).commandCount = s.commandCount := rfl
@[simp] theorem regWord_noteReads (i : Reg) : (s.noteReads rs).regWord i = s.regWord i := rfl
@[simp] theorem holds_noteReads (i : Reg) : (s.noteReads rs).holds i = s.holds i := rfl
@[simp] theorem operand_noteReads (i : Reg) : (s.noteReads rs).operand i = s.operand i := rfl

/-- The ghost mark after a read is set exactly if it was set or one of the registers read holds no value (R28). -/
theorem noteReads_readUnheld_iff :
    (s.noteReads rs).readUnheld = true ↔ s.readUnheld = true ∨ ∃ r ∈ rs, s.holds r = false := by
  simp [State.noteReads]

/-- Reading registers that hold values leaves no mark (R182). -/
theorem noteReads_of_holds (h : ∀ r ∈ rs, s.holds r = true) : s.noteReads rs = s := by
  have : rs.any (fun r => !s.holds r) = false := by simpa using h
  simp [State.noteReads, this]

end NoteReads

/-! ### complete -/

section Complete
variable (s : State) (c : Code)

@[simp] theorem complete_w : (s.complete c).w = s.w := rfl
@[simp] theorem complete_held : (s.complete c).held = s.held := rfl
@[simp] theorem complete_status : (s.complete c).status = c := rfl
@[simp] theorem complete_reply : (s.complete c).reply = .code c := rfl
@[simp] theorem complete_faulted : (s.complete c).faulted = (s.faulted || c != codeOk) := rfl
@[simp] theorem complete_readUnheld : (s.complete c).readUnheld = s.readUnheld := rfl
@[simp] theorem complete_port : (s.complete c).port = s.port := rfl
@[simp] theorem complete_cfg : (s.complete c).cfg = s.cfg := rfl
@[simp] theorem complete_commandCount : (s.complete c).commandCount = s.commandCount := rfl
@[simp] theorem regWord_complete (i : Reg) : (s.complete c).regWord i = s.regWord i := rfl
@[simp] theorem holds_complete (i : Reg) : (s.complete c).holds i = s.holds i := rfl

end Complete

/-! ### countCommand -/

section CountCommand
variable (s : State)

@[simp] theorem countCommand_w : s.countCommand.w = s.w := rfl
@[simp] theorem countCommand_held : s.countCommand.held = s.held := rfl
@[simp] theorem countCommand_status : s.countCommand.status = s.status := rfl
@[simp] theorem countCommand_faulted : s.countCommand.faulted = s.faulted := rfl
@[simp] theorem countCommand_readUnheld : s.countCommand.readUnheld = s.readUnheld := rfl
@[simp] theorem countCommand_port : s.countCommand.port = s.port := rfl
@[simp] theorem countCommand_reply : s.countCommand.reply = s.reply := rfl
@[simp] theorem countCommand_cfg : s.countCommand.cfg = s.cfg := rfl
@[simp] theorem countCommand_commandCount : s.countCommand.commandCount = s.commandCount + 1 := rfl
@[simp] theorem regWord_countCommand (i : Reg) : s.countCommand.regWord i = s.regWord i := rfl
@[simp] theorem holds_countCommand (i : Reg) : s.countCommand.holds i = s.holds i := rfl

end CountCommand

/-! ### The configuration a command meets -/

@[simp] theorem total_after (e : Expwad) (k : Nat) : (e.after k).total = e.total := by cases e <;> rfl
@[simp] theorem lawful_after (e : Expwad) (k : Nat) : (e.after k).lawful = e.lawful := by cases e <;> rfl

theorem total_of_lawful {e : Expwad} (h : e.lawful = true) : e.total = true := by cases e <;> first | rfl | cases h

/-- An exponential that meets R100 is the same at every use. -/
theorem after_of_lawful {e : Expwad} (h : e.lawful = true) (k : Nat) : e.after k = e := by
  cases e <;> first | rfl | cases h

@[simp] theorem cfgNow_expwad (s : State) : s.cfgNow.expwad = s.cfg.expwad.after s.commandCount := rfl

/-- With an exponential that meets R100 a command meets the configuration as it was built. -/
theorem cfgNow_of_lawful {s : State} (h : s.cfg.expwad.lawful = true) : s.cfgNow = s.cfg := by
  simp [State.cfgNow, after_of_lawful h]

theorem lawful_of_admissible {c : Config} (h : c.admissible = true) : c.expwad.lawful = true := by
  simp only [Config.admissible, Bool.and_eq_true] at h
  exact h.2

theorem cfgNow_of_default {s : State} (h : s.cfg = Config.default) : s.cfgNow = Config.default := by
  rw [cfgNow_of_lawful (by rw [h]; rfl), h]

/-! ### finish and command: the common execution sequence (R65) -/

@[simp] theorem finish_ok (s : State) (rd : Reg) (v : Int) :
    s.finish rd (.ok v) = .next ((s.writeReg rd (word v)).complete codeOk) := rfl
@[simp] theorem finish_err (s : State) (rd : Reg) (e : FnError) :
    s.finish rd (.err e) = .next (s.complete (code e)) := rfl
@[simp] theorem finish_noReturn (s : State) (rd : Reg) : s.finish rd .noReturn = .fault .expwadDoesNotReturn := rfl

@[simp] theorem status_ok (v : Int) : (FnOutcome.ok v).status = some codeOk := rfl
@[simp] theorem status_err (e : FnError) : (FnOutcome.err e).status = some (code e) := rfl
@[simp] theorem status_noReturn : FnOutcome.noReturn.status = none := rfl

theorem code_ne_codeOk (e : FnError) : code e ≠ codeOk := by cases e <;> decide

/-- A command whose function does not return is stuck (U5). -/
theorem command_noReturn (s : State) (rd : Reg) (srcs : List Reg) :
    s.command rd srcs .noReturn = .fault .expwadDoesNotReturn := rfl

/-- A command whose function returns ends in a next state (R30, R186). -/
theorem command_returns (s : State) (rd : Reg) (srcs : List Reg) {o : FnOutcome} (h : o ≠ .noReturn) :
    ∃ t, s.command rd srcs o = .next t := by
  cases o with
  | ok v => exact ⟨_, rfl⟩
  | err e => exact ⟨_, rfl⟩
  | noReturn => exact absurd rfl h

/-- Everything a command that returns does, said once (R65, R153, R154): its status and reply are the code of the
outcome, the destination is written exactly if the outcome is a value, and every other register, the port and the
configuration stay. -/
theorem command_spec {s t : State} {rd : Reg} {srcs : List Reg} {o : FnOutcome} (h : s.command rd srcs o = .next t) :
    o.status = some t.status
    ∧ t.reply = .code t.status
    ∧ t.faulted = (s.faulted || t.status != codeOk)
    ∧ t.readUnheld = (s.noteReads srcs).readUnheld
    ∧ t.port = s.port
    ∧ t.cfg = s.cfg
    ∧ t.commandCount = s.commandCount + 1
    ∧ (∀ v, o = .ok v → t.regWord rd = word v ∧ t.holds rd = true)
    ∧ (∀ r, r ≠ rd → t.regWord r = s.regWord r ∧ t.holds r = s.holds r)
    ∧ (∀ e, o = .err e → t.w = s.w ∧ t.held = s.held) := by
  cases o with
  | ok v =>
    cases h
    refine ⟨rfl, rfl, rfl, rfl, rfl, rfl, rfl, ?_, ?_, ?_⟩
    · rintro _ ⟨⟩
      exact ⟨by simp, by simp⟩
    · intro r hr
      simp [regWord_writeReg_ne _ _ hr, holds_writeReg_ne _ _ hr]
    · rintro _ ⟨⟩
  | err e =>
    cases h
    refine ⟨rfl, rfl, rfl, rfl, rfl, rfl, rfl, ?_, fun _ _ => ⟨rfl, rfl⟩, fun _ _ => ⟨rfl, rfl⟩⟩
    rintro _ ⟨⟩
  | noReturn => cases h

/-! ### Outcomes -/

@[simp] theorem bind_ok (v : Int) (f : Int → FnOutcome) : (FnOutcome.ok v).bind f = f v := rfl
@[simp] theorem bind_err (e : FnError) (f : Int → FnOutcome) : (FnOutcome.err e).bind f = .err e := rfl
@[simp] theorem bind_noReturn (f : Int → FnOutcome) : FnOutcome.noReturn.bind f = .noReturn := rfl

/-- A bind gives a value only through a value of its first part. -/
theorem bind_eq_ok {o : FnOutcome} {f : Int → FnOutcome} {v : Int} (h : o.bind f = .ok v) :
    ∃ a, o = .ok a ∧ f a = .ok v := by
  cases o with
  | ok a => exact ⟨a, rfl, h⟩
  | err e => cases h
  | noReturn => cases h

/-- A bind gives an error through its first part, or through its second on the first's value. -/
theorem bind_eq_err {o : FnOutcome} {f : Int → FnOutcome} {e : FnError} (h : o.bind f = .err e) :
    o = .err e ∨ ∃ a, o = .ok a ∧ f a = .err e := by
  cases o with
  | ok a => exact .inr ⟨a, rfl, h⟩
  | err e' => exact .inl h
  | noReturn => cases h

/-- A bind returns if both its parts do. -/
theorem bind_ne_noReturn {o : FnOutcome} {f : Int → FnOutcome} (h : o ≠ .noReturn)
    (hf : ∀ a, o = .ok a → f a ≠ .noReturn) : o.bind f ≠ .noReturn := by
  cases o with
  | ok a => exact hf a rfl
  | err e => simp
  | noReturn => exact absurd rfl h

end Sys2Proof.Machine
end

