-- ==== Sys2Proof/Laws/Arith.lean ====
section
/-! SUPPORT. Laws/Arith.lean: the spec lemmas of words, of the range check, of truncating division and of the checked
arithmetic (spec R9 to R11, R80 to R92). -/

namespace Sys2Proof.Machine

/-! ### Words -/

theorem MAX_eq : MAX = 2 ^ 255 - 1 := by norm_num [MAX]
theorem MIN_eq : MIN = -2 ^ 255 := by norm_num [MIN]

theorem MIN_le_sval (b : Word) : MIN ≤ sval b := by
  have := BitVec.le_two_mul_toInt (x := b)
  simp only [sval, MIN]
  omega

theorem sval_le_MAX (b : Word) : sval b ≤ MAX := by
  have := BitVec.two_mul_toInt_lt (x := b)
  simp only [sval, MAX]
  omega

/-- `word` undoes `sval` (R9). -/
@[simp] theorem word_sval (b : Word) : word (sval b) = b := by simp [word, sval]

/-- `sval (word v) = v` for `v` in [MIN, MAX] (R9). -/
theorem sval_word {v : Int} (h : MIN ≤ v) (h' : v ≤ MAX) : sval (word v) = v := by
  simp only [MIN, MAX] at h h'
  simp only [sval, word, BitVec.toInt_ofInt]
  rw [Int.bmod_eq_of_le] <;> omega

theorem MIN_le_operand (s : State) (r : Reg) : MIN ≤ s.operand r := MIN_le_sval _
theorem operand_le_MAX (s : State) (r : Reg) : s.operand r ≤ MAX := sval_le_MAX _

/-! ### The range check -/

theorem chk_of_range {v : Int} (h : MIN ≤ v) (h' : v ≤ MAX) : chk v = .ok v := by simp [chk, h, h']

theorem chk_of_not_range {v : Int} (h : ¬(MIN ≤ v ∧ v ≤ MAX)) : chk v = .err .arithmeticOverflow := by
  simp [chk, h]

theorem chk_eq_ok_iff {v u : Int} : chk v = .ok u ↔ MIN ≤ v ∧ v ≤ MAX ∧ u = v := by
  unfold chk
  split
  · rename_i h
    simp [h, eq_comm]
  · rename_i h
    simp only [reduceCtorEq, false_iff]
    exact fun ⟨a, b, _⟩ => h ⟨a, b⟩

theorem chk_eq_err {v : Int} {e : FnError} (h : chk v = .err e) : e = .arithmeticOverflow := by
  unfold chk at h
  split at h
  · cases h
  · cases h
    rfl

theorem chk_returns (v : Int) : chk v ≠ .noReturn := by
  unfold chk
  split <;> simp

/-- The range check passes for every magnitude below 2^255. -/
theorem chk_of_natAbs {v : Int} (h : v.natAbs < 2 ^ 255) : chk v = .ok v := by
  apply chk_of_range <;> simp only [MIN, MAX] <;> omega

/-! ### Truncating division -/

/-- `tdiv` is Lean's division truncated toward zero. -/
theorem tdiv_eq_tdiv (a b : Int) : tdiv a b = Int.tdiv a b := by
  unfold tdiv
  rcases Int.natAbs_eq a with ha | ha <;> rcases Int.natAbs_eq b with hb | hb <;>
    generalize a.natAbs = m at * <;> generalize b.natAbs = n at * <;> subst ha <;> subst hb <;>
    rcases Nat.eq_zero_or_pos m with rfl | hm <;> rcases Nat.eq_zero_or_pos n with rfl | hn <;>
    simp [Int.sign_natCast_of_ne_zero, Nat.pos_iff_ne_zero.mp, *, Int.neg_tdiv,
      Int.tdiv_neg]

theorem natAbs_tdiv_le (a b : Int) : (tdiv a b).natAbs ≤ a.natAbs := by
  rw [tdiv_eq_tdiv, Int.natAbs_tdiv]
  exact Nat.div_le_self _ _

/-! ### Multiply-divide -/

/-- Everything `F_muldiv` can answer (R82), with the test of step 3 in the words of R88. -/
theorem F_muldiv_spec {a b d : Int} :
    F_muldiv a b d =
      if ¬(MIN ≤ a * b ∧ a * b ≤ MAX) then .err .arithmeticOverflow
      else if d = 0 then .err .divideByZero
      else if a * b = MIN ∧ d = -1 then .err .arithmeticOverflow
      else .ok (Int.tdiv (a * b) d) := by
  unfold F_muldiv
  by_cases hr : MIN ≤ a * b ∧ a * b ≤ MAX
  · rw [chk_of_range hr.1 hr.2]
    simp only [hr, and_self, not_true_eq_false, if_false, bind_ok, tdiv_eq_tdiv]
    by_cases hd : d = 0
    · simp [hd]
    · simp only [hd, if_false]
      by_cases hm : a * b = MIN ∧ d = -1
      · simp [hm, MIN, MAX]
      · have : ¬(Int.tdiv (a * b) d > MAX) := by
          intro hgt
          apply hm
          generalize a * b = p at *
          have h1 : (Int.tdiv p d).natAbs = p.natAbs / d.natAbs := Int.natAbs_tdiv p d
          have h2 : p.natAbs / d.natAbs ≤ p.natAbs := Nat.div_le_self _ _
          have hM : p = MIN := by
            simp only [MIN, MAX] at *
            omega
          refine ⟨hM, ?_⟩
          subst hM
          have hd1 : d.natAbs = 1 := by
            by_contra hne
            have h3 : d.natAbs ≥ 2 := by omega
            have h4 : MIN.natAbs / d.natAbs ≤ MIN.natAbs / 2 := Nat.div_le_div_left h3 (by decide)
            simp only [MIN, MAX] at *
            omega
          rcases Int.natAbs_eq d with h | h
          · rw [hd1] at h
            subst h
            simp [MIN, MAX] at hgt
          · rw [hd1] at h
            simpa using h
        simp [hm, this]
  · rw [chk_of_not_range hr]
    simp [hr]

/-- A product that fits over a divisor that is neither 0 nor -1 gives the truncated quotient (R82, R83). -/
theorem F_muldiv_ok {a b d : Int} (h : MIN ≤ a * b) (h' : a * b ≤ MAX) (h0 : d ≠ 0) (h1 : d ≠ -1) :
    F_muldiv a b d = .ok (Int.tdiv (a * b) d) := by
  rw [F_muldiv_spec]
  simp [h, h', h0, h1]

theorem F_mulwad_spec (x y : Int) :
    F_mulwad x y =
      if MIN ≤ x * y ∧ x * y ≤ MAX then .ok (Int.tdiv (x * y) WAD) else .err .arithmeticOverflow := by
  unfold F_mulwad
  rw [F_muldiv_spec]
  by_cases hr : MIN ≤ x * y ∧ x * y ≤ MAX <;> simp [hr, WAD]

theorem F_divwad_spec (x y : Int) :
    F_divwad x y =
      if ¬(MIN ≤ x * WAD ∧ x * WAD ≤ MAX) then .err .arithmeticOverflow
      else if y = 0 then .err .divideByZero
      else .ok (Int.tdiv (x * WAD) y) := by
  unfold F_divwad
  rw [F_muldiv_spec]
  have : x * WAD ≠ MIN := by
    simp only [WAD, MIN]
    omega
  simp [this]

/-- `F_muldiv` raises only two errors (R82). -/
theorem F_muldiv_err {a b d : Int} {e : FnError} (h : F_muldiv a b d = .err e) :
    e = .arithmeticOverflow ∨ e = .divideByZero ∧ d = 0 := by
  rw [F_muldiv_spec] at h
  split at h
  · cases h; exact .inl rfl
  · split at h
    · rename_i hd
      cases h; exact .inr ⟨rfl, hd⟩
    · split at h
      · cases h; exact .inl rfl
      · cases h

theorem F_muldiv_returns (a b d : Int) : F_muldiv a b d ≠ .noReturn := by
  rw [F_muldiv_spec]
  split_ifs <;> simp

theorem F_abs_returns (x : Int) : F_abs x ≠ .noReturn := by
  unfold F_abs
  split_ifs <;> simp

theorem F_mulwad_err {x y : Int} {e : FnError} (h : F_mulwad x y = .err e) : e = .arithmeticOverflow := by
  rcases F_muldiv_err h with h | ⟨_, h⟩
  · exact h
  · cases h

/-- `F_abs` of anything but MIN is the magnitude (R89). -/
theorem F_abs_of_ne {x : Int} (h : x ≠ MIN) : F_abs x = .ok (x.natAbs : Int) := by
  unfold F_abs
  rw [if_neg h]
  split <;> congr 1 <;> omega

end Sys2Proof.Machine
end

