-- ==== Sys2Proof/Laws/Decode.lean ====
section
/-! SUPPORT. Laws/Decode.lean: command words seen through the fields of format `R4` (spec R61): when a word matches a
row of the opcode map, in terms of its fields, and the word of each command as fields. -/

namespace Sys2Proof

/-- Each bit of a word is a bit of one field (R61). -/
theorem getLsbD_toWord (f : R4) (i : Nat) :
    f.toWord.getLsbD i =
      if i < 12 then f.zero.getLsbD i
      else if i < 15 then f.rc.getLsbD (i - 12)
      else if i < 18 then f.rb.getLsbD (i - 15)
      else if i < 21 then f.ra.getLsbD (i - 18)
      else if i < 24 then f.rd.getLsbD (i - 21)
      else f.opcode.getLsbD (i - 24) := by
  unfold R4.toWord
  erw [BitVec.getLsbD_append, BitVec.getLsbD_append, BitVec.getLsbD_append, BitVec.getLsbD_append,
    BitVec.getLsbD_append]
  simp only [Nat.sub_sub]
  split_ifs <;> first | rfl | (exfalso; omega)

/-- A word is the word of its fields. -/
theorem toWord_ofWord (c : CommandWord) : (R4.ofWord c).toWord = c := by
  apply BitVec.eq_of_getLsbD_eq
  intro i hi
  rw [getLsbD_toWord]
  simp only [R4.ofWord, BitVec.getLsbD_extractLsb']
  repeat' split
  all_goals (rw [decide_eq_true (by omega), Bool.true_and]; congr 1; omega)

/-- Fields are the fields of their word. -/
theorem ofWord_toWord (f : R4) : R4.ofWord f.toWord = f := by
  rcases f with ⟨o, d, a, b, c, z⟩
  simp only [R4.ofWord, R4.mk.injEq]
  refine ⟨?_, ?_, ?_, ?_, ?_, ?_⟩ <;>
  · apply BitVec.eq_of_getLsbD_eq
    intro i hi
    rw [BitVec.getLsbD_extractLsb', getLsbD_toWord, decide_eq_true hi, Bool.true_and]
    simp only
    repeat (first | rw [if_pos (by omega)] | rw [if_neg (by omega)])
    congr 1
    try omega

theorem toWord_inj {f g : R4} : f.toWord = g.toWord ↔ f = g :=
  ⟨fun h => by rw [← ofWord_toWord f, h, ofWord_toWord], fun h => by rw [h]⟩

theorem toWord_and (f g : R4) :
    f.toWord &&& g.toWord
      = R4.toWord ⟨f.opcode &&& g.opcode, f.rd &&& g.rd, f.ra &&& g.ra, f.rb &&& g.rb, f.rc &&& g.rc,
          f.zero &&& g.zero⟩ := by
  apply BitVec.eq_of_getLsbD_eq
  intro i _
  rw [BitVec.getLsbD_and]
  simp only [getLsbD_toWord, BitVec.getLsbD_and]
  repeat' split
  all_goals rfl

/-- Masking and comparing a word is masking and comparing its fields. -/
theorem and_toWord_eq (c : CommandWord) (m g : R4) :
    c &&& m.toWord = g.toWord ↔
      (R4.ofWord c).opcode &&& m.opcode = g.opcode ∧ (R4.ofWord c).rd &&& m.rd = g.rd
      ∧ (R4.ofWord c).ra &&& m.ra = g.ra ∧ (R4.ofWord c).rb &&& m.rb = g.rb
      ∧ (R4.ofWord c).rc &&& m.rc = g.rc ∧ (R4.ofWord c).zero &&& m.zero = g.zero := by
  conv_lhs => rw [← toWord_ofWord c]
  rw [toWord_and, toWord_inj]
  rcases g with ⟨o, d, a, b, e, z⟩
  simp only [R4.mk.injEq]

theorem and_ones8 (x : BitVec 8) : x &&& 0xFF#8 = x := BitVec.and_allOnes
theorem and_ones3 (x : BitVec 3) : x &&& 7#3 = x := BitVec.and_allOnes
theorem and_ones12 (x : BitVec 12) : x &&& 0xFFF#12 = x := BitVec.and_allOnes

/-- A command with one source: opcode, and `rb`, `rc` and `zero` all zero (R66). -/
theorem matches_one (c : CommandWord) (k : BitVec 8) :
    c &&& 0xFF03FFFF#32 = R4.toWord ⟨k, 0, 0, 0, 0, 0⟩ ↔
      (R4.ofWord c).opcode = k ∧ (R4.ofWord c).rb = 0#3 ∧ (R4.ofWord c).rc = 0#3 ∧ (R4.ofWord c).zero = 0#12 := by
  have : 0xFF03FFFF#32 = R4.toWord ⟨0xFF#8, 0, 0, 7#3, 7#3, 0xFFF#12⟩ := by decide
  rw [this, and_toWord_eq]
  simp [and_ones8, and_ones3, and_ones12]

/-- A command with two sources: opcode, and `rc` and `zero` zero (R66). -/
theorem matches_two (c : CommandWord) (k : BitVec 8) :
    c &&& 0xFF007FFF#32 = R4.toWord ⟨k, 0, 0, 0, 0, 0⟩ ↔
      (R4.ofWord c).opcode = k ∧ (R4.ofWord c).rc = 0#3 ∧ (R4.ofWord c).zero = 0#12 := by
  have : 0xFF007FFF#32 = R4.toWord ⟨0xFF#8, 0, 0, 0, 7#3, 0xFFF#12⟩ := by decide
  rw [this, and_toWord_eq]
  simp [and_ones8, and_ones3, and_ones12]

/-- A command with three sources: opcode, and `zero` zero (R66). -/
theorem matches_three (c : CommandWord) (k : BitVec 8) :
    c &&& 0xFF000FFF#32 = R4.toWord ⟨k, 0, 0, 0, 0, 0⟩ ↔
      (R4.ofWord c).opcode = k ∧ (R4.ofWord c).zero = 0#12 := by
  have : 0xFF000FFF#32 = R4.toWord ⟨0xFF#8, 0, 0, 0, 0, 0xFFF#12⟩ := by decide
  rw [this, and_toWord_eq]
  simp [and_ones8, and_ones12]

/-- Decoding a word is a choice on its fields (R64, R66, R67). -/
theorem decode_fields (c : CommandWord) :
    decode c =
      let f := R4.ofWord c
      if f.opcode = 1#8 ∧ f.rc = 0#3 ∧ f.zero = 0#12 then .command (.mulwad f.rd.toFin f.ra.toFin f.rb.toFin)
      else if f.opcode = 2#8 ∧ f.rc = 0#3 ∧ f.zero = 0#12 then .command (.divwad f.rd.toFin f.ra.toFin f.rb.toFin)
      else if f.opcode = 3#8 ∧ f.zero = 0#12 then .command (.muldiv f.rd.toFin f.ra.toFin f.rb.toFin f.rc.toFin)
      else if f.opcode = 4#8 ∧ f.rb = 0#3 ∧ f.rc = 0#3 ∧ f.zero = 0#12 then .command (.abs f.rd.toFin f.ra.toFin)
      else if f.opcode = 5#8 ∧ f.rb = 0#3 ∧ f.rc = 0#3 ∧ f.zero = 0#12 then .command (.expw f.rd.toFin f.ra.toFin)
      else if f.opcode = 6#8 ∧ f.rb = 0#3 ∧ f.rc = 0#3 ∧ f.zero = 0#12 then .command (.poly f.rd.toFin f.ra.toFin)
      else if f.opcode = 7#8 ∧ f.rb = 0#3 ∧ f.rc = 0#3 ∧ f.zero = 0#12 then .command (.erfc f.rd.toFin f.ra.toFin)
      else if f.opcode = 8#8 ∧ f.zero = 0#12 then .command (.cdf f.rd.toFin f.ra.toFin f.rb.toFin f.rc.toFin)
      else .illegal (illegalReason c) := by
  simp only [decode, opcodeTable, List.find?, OpcodeRow.matches]
  have h1 : c &&& 0xFF007FFF#32 = 0x01000000#32 ↔ _ := matches_two c 1#8
  have h2 : c &&& 0xFF007FFF#32 = 0x02000000#32 ↔ _ := matches_two c 2#8
  have h3 : c &&& 0xFF000FFF#32 = 0x03000000#32 ↔ _ := matches_three c 3#8
  have h4 : c &&& 0xFF03FFFF#32 = 0x04000000#32 ↔ _ := matches_one c 4#8
  have h5 : c &&& 0xFF03FFFF#32 = 0x05000000#32 ↔ _ := matches_one c 5#8
  have h6 : c &&& 0xFF03FFFF#32 = 0x06000000#32 ↔ _ := matches_one c 6#8
  have h7 : c &&& 0xFF03FFFF#32 = 0x07000000#32 ↔ _ := matches_one c 7#8
  have h8 : c &&& 0xFF000FFF#32 = 0x08000000#32 ↔ _ := matches_three c 8#8
  by_cases g1 : c &&& 0xFF007FFF#32 = 0x01000000#32
  · rw [if_pos (h1.mp g1), beq_iff_eq.mpr g1]
    rfl
  rw [if_neg (mt h1.mpr g1), beq_eq_false_iff_ne.mpr g1]
  by_cases g2 : c &&& 0xFF007FFF#32 = 0x02000000#32
  · rw [if_pos (h2.mp g2), beq_iff_eq.mpr g2]
    rfl
  rw [if_neg (mt h2.mpr g2), beq_eq_false_iff_ne.mpr g2]
  by_cases g3 : c &&& 0xFF000FFF#32 = 0x03000000#32
  · rw [if_pos (h3.mp g3), beq_iff_eq.mpr g3]
    rfl
  rw [if_neg (mt h3.mpr g3), beq_eq_false_iff_ne.mpr g3]
  by_cases g4 : c &&& 0xFF03FFFF#32 = 0x04000000#32
  · rw [if_pos (h4.mp g4), beq_iff_eq.mpr g4]
    rfl
  rw [if_neg (mt h4.mpr g4), beq_eq_false_iff_ne.mpr g4]
  by_cases g5 : c &&& 0xFF03FFFF#32 = 0x05000000#32
  · rw [if_pos (h5.mp g5), beq_iff_eq.mpr g5]
    rfl
  rw [if_neg (mt h5.mpr g5), beq_eq_false_iff_ne.mpr g5]
  by_cases g6 : c &&& 0xFF03FFFF#32 = 0x06000000#32
  · rw [if_pos (h6.mp g6), beq_iff_eq.mpr g6]
    rfl
  rw [if_neg (mt h6.mpr g6), beq_eq_false_iff_ne.mpr g6]
  by_cases g7 : c &&& 0xFF03FFFF#32 = 0x07000000#32
  · rw [if_pos (h7.mp g7), beq_iff_eq.mpr g7]
    rfl
  rw [if_neg (mt h7.mpr g7), beq_eq_false_iff_ne.mpr g7]
  by_cases g8 : c &&& 0xFF000FFF#32 = 0x08000000#32
  · rw [if_pos (h8.mp g8), beq_iff_eq.mpr g8]
    rfl
  rw [if_neg (mt h8.mpr g8), beq_eq_false_iff_ne.mpr g8]

/-- The word of a command is the word of its fields (R61). -/
theorem r4Word_eq (k : BitVec 8) (rd ra rb rc : Reg) :
    r4Word k rd ra rb rc = R4.toWord ⟨k, BitVec.ofFin rd, BitVec.ofFin ra, BitVec.ofFin rb, BitVec.ofFin rc, 0⟩ := rfl

end Sys2Proof
end

