-- ==== Sys2Proof/Laws/Exp.lean ====
section
/-! SUPPORT. Laws/Exp.lean: what `EXPWAD_REF` has to do with the real exponential (spec R101 to R103): the series sum
in closed form, the bracket of R103 around `10^18 * e^(k / 10^18)`, and the thresholds of R102. -/

namespace Sys2Proof.Machine

/-- `y = 10^18 * e^(k / 10^18)` (R101). -/
noncomputable def expReal (k : Int) : ℝ := 10 ^ 18 * Real.exp (k / 10 ^ 18)

theorem expReal_pos (k : Int) : 0 < expReal k := by unfold expReal; positivity

theorem expReal_mono {k l : Int} (h : k ≤ l) : expReal k ≤ expReal l := by
  unfold expReal
  have : (k : ℝ) ≤ l := by exact_mod_cast h
  gcongr

/-! ### The series sum -/

theorem expSum_pow (k : Int) (n : Nat) : (expSum k n).pow = k ^ n := by
  induction n with
  | zero => simp [expSum]
  | succ n ih => simp only [expSum, ih, pow_succ]

theorem expSum_den (k : Int) (n : Nat) : (expSum k n).den = WAD ^ n * (n.factorial : Int) := by
  induction n with
  | zero => simp [expSum]
  | succ n ih =>
    simp only [expSum, ih, pow_succ, Nat.factorial_succ]
    push_cast
    ring

theorem expSum_den_pos (k : Int) (n : Nat) : 0 < (expSum k n).den := by
  rw [expSum_den]
  have : (0 : Int) < WAD := by decide
  positivity

theorem expSum_num (k : Int) (n : Nat) :
    ((expSum k n).num : ℝ) =
      (expSum k n).den * ∑ j ∈ Finset.range n, ((k : ℝ) / 10 ^ 18) ^ j / (j.factorial : ℝ) := by
  induction n with
  | zero => simp [expSum]
  | succ n ih =>
    rw [Finset.sum_range_succ]
    have hd : ((expSum k n).den : ℝ) = (10 ^ 18) ^ n * n.factorial := by
      rw [expSum_den]
      norm_num [WAD]
    have hp : ((expSum k n).pow : ℝ) = (expSum k n).den * (((k : ℝ) / 10 ^ 18) ^ n / (n.factorial : ℝ)) := by
      rw [expSum_pow, hd]
      have : (n.factorial : ℝ) ≠ 0 := by exact_mod_cast n.factorial_ne_zero
      push_cast
      rw [div_pow]
      field_simp
    simp only [expSum]
    push_cast
    rw [ih, hp]
    ring

/-- The Taylor remainder of R103: `|e^q - S_N| ≤ 2 * |q|^N / N!` for `N + 1 ≥ 2 * |q|`. -/
theorem exp_sub_sum_le (q : ℝ) (n : Nat) (h : 2 * |q| ≤ n + 1) :
    |Real.exp q - ∑ j ∈ Finset.range n, q ^ j / (j.factorial : ℝ)| ≤ 2 * (|q| ^ n / n.factorial) := by
  have hc := Complex.exp_bound' (x := (q : ℂ)) (n := n) (by
    rw [Complex.norm_real, Real.norm_eq_abs, Nat.succ_eq_add_one, div_le_div_iff₀ (by positivity) (by norm_num)]
    push_cast
    linarith)
  have he : Complex.exp q - ∑ j ∈ Finset.range n, (q : ℂ) ^ j / (j.factorial : ℂ)
      = ((Real.exp q - ∑ j ∈ Finset.range n, q ^ j / (j.factorial : ℝ) : ℝ) : ℂ) := by
    push_cast
    rfl
  rw [he, Complex.norm_real, Complex.norm_real, Real.norm_eq_abs, Real.norm_eq_abs] at hc
  linarith

/-! ### The bracket -/

/-- The bracket of R103: `L ≤ y ≤ U` once `N + 1 ≥ 2 * |q|`. -/
theorem expSum_bracket (k : Int) (n : Nat) (h : 2 * (k.natAbs : Int) ≤ WAD * (n + 1)) :
    ((expSum k n).lowNum : ℝ) / (expSum k n).den ≤ expReal k
    ∧ expReal k ≤ ((expSum k n).highNum : ℝ) / (expSum k n).den := by
  have hk : ((k.natAbs : Int) : ℝ) = |(k : ℝ)| := by simp
  have hq : 2 * |(k : ℝ) / 10 ^ 18| ≤ (n : ℝ) + 1 := by
    rw [abs_div, abs_of_pos (by positivity : (0 : ℝ) < 10 ^ 18), ← mul_div_assoc, div_le_iff₀ (by positivity), ← hk]
    have : (2 * (k.natAbs : Int) : ℝ) ≤ WAD * (n + 1) := by exact_mod_cast h
    norm_num [WAD] at this ⊢
    linarith
  have hb := exp_sub_sum_le _ n hq
  have hden : (0 : ℝ) < (expSum k n).den := by exact_mod_cast expSum_den_pos k n
  have hd : ((expSum k n).den : ℝ) = (10 ^ 18) ^ n * n.factorial := by
    rw [expSum_den]
    norm_num [WAD]
  have hf : (0 : ℝ) < n.factorial := by exact_mod_cast n.factorial_pos
  have hp : (((expSum k n).pow.natAbs : Int) : ℝ)
      = (expSum k n).den * (|(k : ℝ) / 10 ^ 18| ^ n / (n.factorial : ℝ)) := by
    rw [expSum_pow, hd, Int.natAbs_pow, abs_div, abs_of_pos (by positivity : (0 : ℝ) < 10 ^ 18)]
    push_cast
    rw [div_pow]
    field_simp
  have hW : ((WAD : Int) : ℝ) = 10 ^ 18 := by norm_num [WAD]
  rw [abs_le] at hb
  unfold expReal ExpSum.lowNum ExpSum.highNum
  constructor
  · rw [div_le_iff₀ hden, Int.cast_mul, Int.cast_sub, Int.cast_mul, hp, expSum_num, hW]
    push_cast
    have := mul_le_mul_of_nonneg_left hb.1 (by positivity : (0 : ℝ) ≤ 10 ^ 18 * (expSum k n).den)
    linarith
  · rw [le_div_iff₀ hden, Int.cast_mul, Int.cast_add, Int.cast_mul, hp, expSum_num, hW]
    push_cast
    have := mul_le_mul_of_nonneg_left hb.2 (by positivity : (0 : ℝ) ≤ 10 ^ 18 * (expSum k n).den)
    linarith

/-- The floors of R103 bound `y`: `floor(L) ≤ y < floor(U) + 1`. -/
theorem expSum_floors (k : Int) (n : Nat) (h : 2 * (k.natAbs : Int) ≤ WAD * (n + 1)) :
    ((expSum k n).lowFloor : ℝ) ≤ expReal k ∧ expReal k < (expSum k n).highFloor + 1 := by
  obtain ⟨hl, hu⟩ := expSum_bracket k n h
  have hden : (0 : ℝ) < (expSum k n).den := by exact_mod_cast expSum_den_pos k n
  constructor
  · refine le_trans ?_ hl
    rw [le_div_iff₀ hden]
    exact_mod_cast Int.ediv_mul_le _ (expSum_den_pos k n).ne'
  · refine lt_of_le_of_lt hu ?_
    rw [div_lt_iff₀ hden]
    exact_mod_cast Int.lt_ediv_add_one_mul_self _ (expSum_den_pos k n)

/-- A decided bracket gives the floor of `y` (R101, R103). -/
theorem floor_of_decided (k : Int) (n : Nat) (h : 2 * (k.natAbs : Int) ≤ WAD * (n + 1))
    (hd : (expSum k n).decided = true) : ⌊expReal k⌋ = (expSum k n).lowFloor := by
  obtain ⟨hl, hu⟩ := expSum_floors k n h
  simp only [ExpSum.decided, Bool.and_eq_true, beq_iff_eq, decide_eq_true_eq] at hd
  rw [Int.floor_eq_iff]
  exact ⟨hl, by rw [hd.1]; exact hu⟩

/-! ### The thresholds of R102 -/

/-- `y < 1` up to the zero threshold. -/
theorem expReal_lt_one {k : Int} (h : k ≤ EXP_ZERO_FROM) : expReal k < 1 := by
  have hu := (expSum_bracket EXP_ZERO_FROM 400 (by decide)).2
  have hden : (0 : ℝ) < (expSum EXP_ZERO_FROM 400).den := by exact_mod_cast expSum_den_pos _ 400
  have : ((expSum EXP_ZERO_FROM 400).highNum : ℝ) / (expSum EXP_ZERO_FROM 400).den < 1 := by
    rw [div_lt_one hden]
    exact_mod_cast (by decide +kernel : (expSum EXP_ZERO_FROM 400).highNum < (expSum EXP_ZERO_FROM 400).den)
  linarith [expReal_mono h]

/-- `y` is more than 1 above the zero threshold, by more than `10^-19`. -/
theorem one_lt_expReal {k : Int} (h : EXP_ZERO_FROM < k) : 1 + 1 / 10 ^ 19 ≤ expReal k := by
  have hl := (expSum_bracket (EXP_ZERO_FROM + 1) 400 (by decide)).1
  have hden : (0 : ℝ) < (expSum (EXP_ZERO_FROM + 1) 400).den := by exact_mod_cast expSum_den_pos _ 400
  have hn : (10 ^ 19 + 1) * (expSum (EXP_ZERO_FROM + 1) 400).den
      ≤ 10 ^ 19 * (expSum (EXP_ZERO_FROM + 1) 400).lowNum := by decide +kernel
  have hn' : ((10 : ℝ) ^ 19 + 1) * (expSum (EXP_ZERO_FROM + 1) 400).den
      ≤ 10 ^ 19 * (expSum (EXP_ZERO_FROM + 1) 400).lowNum := by exact_mod_cast hn
  have : (1 : ℝ) + 1 / 10 ^ 19
      ≤ ((expSum (EXP_ZERO_FROM + 1) 400).lowNum : ℝ) / (expSum (EXP_ZERO_FROM + 1) 400).den := by
    rw [le_div_iff₀ hden]
    linarith
  linarith [expReal_mono (show EXP_ZERO_FROM + 1 ≤ k from h)]

/-- `y ≥ 1` above the zero threshold. -/
theorem one_le_expReal {k : Int} (h : EXP_ZERO_FROM < k) : 1 ≤ expReal k := by
  have : (0 : ℝ) < 1 / 10 ^ 19 := by positivity
  linarith [one_lt_expReal h]

/-- `y ≥ MAX + 1` from the overflow threshold on. -/
theorem MAX_lt_expReal {k : Int} (h : EXP_OVERFLOW_FROM ≤ k) : (MAX : ℝ) + 1 ≤ expReal k := by
  have hl := (expSum_bracket EXP_OVERFLOW_FROM 800 (by decide)).1
  have hden : (0 : ℝ) < (expSum EXP_OVERFLOW_FROM 800).den := by exact_mod_cast expSum_den_pos _ 800
  have : (MAX : ℝ) + 1 ≤ ((expSum EXP_OVERFLOW_FROM 800).lowNum : ℝ) / (expSum EXP_OVERFLOW_FROM 800).den := by
    rw [le_div_iff₀ hden]
    exact_mod_cast (by decide +kernel :
      (MAX + 1) * (expSum EXP_OVERFLOW_FROM 800).den ≤ (expSum EXP_OVERFLOW_FROM 800).lowNum)
  linarith [expReal_mono h]

/-- `y ≤ MAX - 1` below the overflow threshold. -/
theorem expReal_le_MAX {k : Int} (h : k < EXP_OVERFLOW_FROM) : expReal k ≤ (MAX : ℝ) - 1 := by
  have hu := (expSum_bracket (EXP_OVERFLOW_FROM - 1) 800 (by decide)).2
  have hden : (0 : ℝ) < (expSum (EXP_OVERFLOW_FROM - 1) 800).den := by exact_mod_cast expSum_den_pos _ 800
  have : ((expSum (EXP_OVERFLOW_FROM - 1) 800).highNum : ℝ) / (expSum (EXP_OVERFLOW_FROM - 1) 800).den
      ≤ (MAX : ℝ) - 1 := by
    rw [div_le_iff₀ hden]
    exact_mod_cast (by decide +kernel :
      (expSum (EXP_OVERFLOW_FROM - 1) 800).highNum ≤ (MAX - 1) * (expSum (EXP_OVERFLOW_FROM - 1) 800).den)
  linarith [expReal_mono (show k ≤ EXP_OVERFLOW_FROM - 1 from Int.le_sub_one_of_lt h)]

end Sys2Proof.Machine
end

