-- ==== Sys2Proof/Laws/ExpGap.lean ====
section
/-! SUPPORT. Laws/ExpGap.lean: how near `10^18 * e^(k / 10^18)` comes to an integer, and from it that the test of R103
decides at every sum of 10^26 terms or more. The spec's argument that the loop ends (`y` is never an integer for `k ≠ 0`,
R101, R103) gives no bound on where; this one does. It follows Lambert's continued fraction: integers `X_n`, `Y_n` with
`X_n * e^(a/b) + Y_n` positive and tending to 0, from which an integer near `b * e^(a/b)` is separated by about
`1 / X_n`. -/

namespace Sys2Proof.Machine

/-- The product `1 * 3 * ... * (2 * n - 1)` of the first `n` odd numbers. -/
def oddProd : Nat → Nat
  | 0 => 1
  | n + 1 => (2 * n + 1) * oddProd n

theorem oddProd_pos (n : Nat) : 0 < oddProd n := by
  induction n with
  | zero => decide
  | succ n ih => exact Nat.mul_pos (Nat.succ_pos _) ih

theorem oddProd_mul_le (n j : Nat) : oddProd n * oddProd j ≤ oddProd (n + j) := by
  induction j with
  | zero => simp [oddProd]
  | succ j ih =>
    show oddProd n * ((2 * j + 1) * oddProd j) ≤ (2 * (n + j) + 1) * oddProd (n + j)
    calc oddProd n * ((2 * j + 1) * oddProd j) = (2 * j + 1) * (oddProd n * oddProd j) := by ring
      _ ≤ (2 * (n + j) + 1) * oddProd (n + j) := Nat.mul_le_mul (by omega) ih

theorem factorial_le_oddProd (n : Nat) : n.factorial ≤ oddProd n := by
  induction n with
  | zero => simp [oddProd]
  | succ n ih => exact Nat.mul_le_mul (by omega) ih

theorem oddProd_le_pow {n m : Nat} (h : n ≤ m) : oddProd n ≤ (2 * m) ^ n := by
  induction n with
  | zero => simp [oddProd]
  | succ n ih =>
    rw [pow_succ, mul_comm]
    exact Nat.mul_le_mul (by omega) (ih (by omega))

theorem factorial_two_mul (j : Nat) : (2 * j).factorial = 2 ^ j * j.factorial * oddProd j := by
  induction j with
  | zero => simp [oddProd]
  | succ j ih =>
    rw [show 2 * (j + 1) = 2 * j + 1 + 1 by ring, Nat.factorial_succ, Nat.factorial_succ, ih, Nat.factorial_succ,
      oddProd, pow_succ]
    ring

theorem factorial_two_mul_succ (j : Nat) : (2 * j + 1).factorial = 2 ^ j * j.factorial * oddProd (j + 1) := by
  rw [Nat.factorial_succ, factorial_two_mul, oddProd]
  ring

/-! ### The approximants of `e^(a / b)` -/

/-- The three-term recurrence of the integers `X_n` (from 1 and `a`) and `Y_n` (from 1 and `-a`). -/
def padeRec (a b u v : Int) : Nat → Int
  | 0 => u
  | 1 => v
  | n + 2 => a ^ 2 * padeRec a b u v n - (2 * n + 1) * (2 * b) * padeRec a b u v (n + 1)

section Pade
variable (a b : Int)

/-- Half of the exponent `a / b`. -/
noncomputable def padeZ : ℝ := a / (2 * b)

/-- The factor by which the powers in the remainder grow. -/
noncomputable def padeW : ℝ := a ^ 2 / (2 * b)

/-- The terms of a series of positive terms for the remainder of the `n`-th approximant. -/
noncomputable def padeTerm (n j : Nat) : ℝ :=
  padeW a b ^ n * padeZ a b ^ (2 * j) / (2 ^ j * j.factorial * oddProd (n + j))

/-- The remainder, up to the factor `2 * e^z`: the same recurrence from `cosh z` and `a * sinh z`. -/
noncomputable def padeRem : Nat → ℝ
  | 0 => Real.cosh (padeZ a b)
  | 1 => a * Real.sinh (padeZ a b)
  | n + 2 => a ^ 2 * padeRem n - (2 * n + 1) * (2 * b) * padeRem (n + 1)

variable {a b} (hb : 0 < b)
include hb

/-- The remainder is the sum of its series: `cosh` and `sinh` at the start, and term by term from then on. -/
theorem padeTerm_hasSum (n : Nat) : HasSum (padeTerm a b n) (padeRem a b n) := by
  have hb' : (b : ℝ) ≠ 0 := by exact_mod_cast hb.ne'
  have ha : (a : ℝ) = 2 * b * padeZ a b := by unfold padeZ; field_simp
  have hw : padeW a b = a * padeZ a b := by unfold padeW padeZ; ring
  induction n using Nat.twoStepInduction with
  | zero =>
    have : padeTerm a b 0 = fun j => padeZ a b ^ (2 * j) / ((2 * j).factorial : ℝ) :=
      funext fun j => by simp [padeTerm, factorial_two_mul]
    rw [this]
    exact Real.hasSum_cosh _
  | one =>
    have : padeTerm a b 1 = fun j => a * (padeZ a b ^ (2 * j + 1) / ((2 * j + 1).factorial : ℝ)) :=
      funext fun j => by
        simp only [padeTerm, hw, factorial_two_mul_succ, Nat.add_comm 1 j]
        push_cast
        ring
    rw [this]
    exact (Real.hasSum_sinh _).mul_left _
  | more n ih ih1 =>
    have h := (ih.mul_left ((a : ℝ) ^ 2)).sub (ih1.mul_left ((2 * n + 1) * (2 * (b : ℝ))))
    have hz : (a : ℝ) ^ 2 * padeTerm a b n 0 - (2 * n + 1) * (2 * (b : ℝ)) * padeTerm a b (n + 1) 0 = 0 := by
      have := oddProd_pos n
      have : (oddProd n : ℝ) ≠ 0 := by positivity
      simp only [padeTerm, oddProd, Nat.add_zero, pow_succ (padeW a b)]
      generalize padeW a b ^ n = W
      rw [hw, ha]
      push_cast
      field_simp
      ring
    rw [← hasSum_nat_add_iff' 1] at h
    simp only [Finset.range_one, Finset.sum_singleton, hz, sub_zero] at h
    have : padeTerm a b (n + 2) = fun j => (a : ℝ) ^ 2 * padeTerm a b n (j + 1)
        - (2 * n + 1) * (2 * (b : ℝ)) * padeTerm a b (n + 1) (j + 1) := funext fun j => by
      have h2 := oddProd_pos (n + j + 1)
      have h3 : (oddProd (n + j + 1) : ℝ) ≠ 0 := by positivity
      have h4 : (j.factorial : ℝ) ≠ 0 := by positivity
      have e : oddProd (n + j + 2) = (2 * (n + j + 1) + 1) * oddProd (n + j + 1) := rfl
      have e2 : oddProd (n + 2 + j) = oddProd (n + j + 2) := congrArg _ (by omega)
      have e3 : oddProd (n + 1 + (j + 1)) = oddProd (n + j + 2) := congrArg _ (by omega)
      have e4 : oddProd (n + (j + 1)) = oddProd (n + j + 1) := rfl
      simp only [padeTerm, e2, e3, e4, e, Nat.factorial_succ, pow_succ (padeW a b)]
      generalize padeW a b ^ n = W
      rw [hw, ha]
      push_cast
      field_simp
      ring
    rw [this]
    exact h

omit hb in
/-- The remainder is `X_n * e^(a/b) + Y_n`. -/
theorem padeRem_eq (n : Nat) :
    2 * Real.exp (padeZ a b) * padeRem a b n
      = padeRec a b 1 a n * Real.exp (2 * padeZ a b) + padeRec a b 1 (-a) n := by
  have he : Real.exp (2 * padeZ a b) = Real.exp (padeZ a b) * Real.exp (padeZ a b) := by rw [two_mul, Real.exp_add]
  have hi : Real.exp (padeZ a b) * Real.exp (-padeZ a b) = 1 := by rw [← Real.exp_add]; simp
  induction n using Nat.twoStepInduction with
  | zero =>
    simp only [padeRem, padeRec, Real.cosh_eq, he]
    push_cast
    linear_combination hi
  | one =>
    simp only [padeRem, padeRec, Real.sinh_eq, he]
    push_cast
    linear_combination (-a : ℝ) * hi
  | more n ih ih1 =>
    simp only [padeRem, padeRec]
    push_cast
    linear_combination (a : ℝ) ^ 2 * ih - (2 * n + 1) * (2 * (b : ℝ)) * ih1

theorem padeW_nonneg : 0 ≤ padeW a b := by
  have : (0 : ℝ) < b := by exact_mod_cast hb
  unfold padeW
  positivity

theorem padeTerm_nonneg (n j : Nat) : 0 ≤ padeTerm a b n j := by
  have := padeW_nonneg (a := a) hb
  have h2 : 0 ≤ padeZ a b ^ (2 * j) := by rw [pow_mul]; positivity
  unfold padeTerm
  positivity

/-- The remainder is at least the first term of its series. -/
theorem padeRem_ge (n : Nat) : padeW a b ^ n / oddProd n ≤ padeRem a b n := by
  have := (padeTerm_hasSum (a := a) hb n)
  have h := le_hasSum this 0 (fun j _ => padeTerm_nonneg hb n j)
  simpa [padeTerm] using h

/-- The remainder is at most its first term times `cosh z`. -/
theorem padeRem_le (n : Nat) : padeRem a b n ≤ padeW a b ^ n / oddProd n * Real.cosh (padeZ a b) := by
  refine hasSum_le (fun j => ?_) (padeTerm_hasSum (a := a) hb n)
    ((Real.hasSum_cosh (padeZ a b)).mul_left (padeW a b ^ n / oddProd n))
  have h1 := padeW_nonneg (a := a) hb
  have h2 : 0 ≤ padeZ a b ^ (2 * j) := by rw [pow_mul]; positivity
  have ho := oddProd_pos n
  have ho' := oddProd_pos j
  have h3 : ((oddProd n * oddProd j : Nat) : ℝ) ≤ oddProd (n + j) := by exact_mod_cast oddProd_mul_le n j
  push_cast at h3
  rw [factorial_two_mul, padeTerm, div_mul_div_comm]
  push_cast
  refine div_le_div_of_nonneg_left (by positivity) (by positivity) ?_
  calc (oddProd n : ℝ) * (2 ^ j * j.factorial * oddProd j) = 2 ^ j * j.factorial * (oddProd n * oddProd j) := by ring
    _ ≤ _ := by gcongr

/-- The integers of the recurrence grow no faster than powers of a constant, for as many of them as are used. -/
theorem padeRec_abs_le {u v : Int} {m : Nat} {C : Int} (hu : |u| ≤ 1) (hv : |v| ≤ C)
    (hC : a ^ 2 + (2 * m + 1) * (2 * b) ≤ C) (n : Nat) (hn : n ≤ m) : |padeRec a b u v n| ≤ C ^ n := by
  have hC1 : 1 ≤ C := by nlinarith [sq_nonneg a, Int.natCast_nonneg m]
  induction n using Nat.twoStepInduction with
  | zero => simpa [padeRec] using hu
  | one => simpa [padeRec] using hv
  | more n ih ih1 =>
    have i0 := ih (by omega)
    have i1 := ih1 (by omega)
    have hm : (n : Int) ≤ m := by omega
    calc |padeRec a b u v (n + 2)|
        ≤ |a ^ 2 * padeRec a b u v n| + |(2 * n + 1) * (2 * b) * padeRec a b u v (n + 1)| := abs_sub _ _
      _ = a ^ 2 * |padeRec a b u v n| + (2 * n + 1) * (2 * b) * |padeRec a b u v (n + 1)| := by
        rw [abs_mul, abs_mul, abs_of_nonneg (sq_nonneg a),
          abs_of_nonneg (show (0 : Int) ≤ (2 * n + 1) * (2 * b) by positivity)]
      _ ≤ a ^ 2 * C ^ (n + 1) + (2 * m + 1) * (2 * b) * C ^ (n + 1) := by
        have : C ^ n ≤ C ^ (n + 1) := pow_le_pow_right₀ hC1 (by omega)
        gcongr
        exact i0.trans this
      _ = (a ^ 2 + (2 * m + 1) * (2 * b)) * C ^ (n + 1) := by ring
      _ ≤ C * C ^ (n + 1) := by gcongr
      _ = C ^ (n + 2) := by ring

/-- How near `b * e^(a / b)` comes to an integer `m`: `X_n * m + b * Y_n` is an integer, so it is 0, and then the
distance times `X_n` is the remainder, or it is at least 1 and the distance times `X_n` at least a half. -/
theorem exp_gap {C : Int} (n : Nat) (hC : a ^ 2 + (2 * n + 1) * (2 * b) ≤ C) (ha : |a| ≤ C)
    (hsmall : b * ((Real.exp (a / b) + 1) * (padeW a b ^ n / oddProd n)) ≤ 1 / 2) (m : Int) :
    min (1 / 2) (b * (2 * Real.exp (padeZ a b) * (padeW a b ^ n / oddProd n)))
      ≤ |b * Real.exp (a / b) - m| * C ^ n := by
  have hb' : (0 : ℝ) < b := by exact_mod_cast hb
  have hq : 2 * padeZ a b = a / b := by unfold padeZ; field_simp
  have hrem := padeRem_eq (a := a) (b := b) n
  rw [hq] at hrem
  have hge := padeRem_ge (a := a) hb n
  have hle := padeRem_le (a := a) hb n
  have hX := padeRec_abs_le (a := a) hb (u := 1) (v := a) (by simp) ha hC n le_rfl
  have hX' : |(padeRec a b 1 a n : ℝ)| ≤ (C : ℝ) ^ n := by exact_mod_cast hX
  have hcosh : 2 * Real.exp (padeZ a b) * Real.cosh (padeZ a b) = Real.exp (a / b) + 1 := by
    rw [Real.cosh_eq, ← hq, two_mul (padeZ a b), Real.exp_add]
    have hi : Real.exp (padeZ a b) * Real.exp (-padeZ a b) = 1 := by rw [← Real.exp_add]; simp
    linear_combination hi
  have hE := Real.exp_pos (padeZ a b)
  set R := 2 * Real.exp (padeZ a b) * padeRem a b n with hR
  set P := padeW a b ^ n / (oddProd n : ℝ) with hP
  have hRl : 2 * Real.exp (padeZ a b) * P ≤ R := by rw [hR]; gcongr
  have hRu : b * R ≤ 1 / 2 := by
    refine le_trans ?_ hsmall
    rw [← hcosh, hR]
    have : 2 * Real.exp (padeZ a b) * padeRem a b n ≤ 2 * Real.exp (padeZ a b) * (P * Real.cosh (padeZ a b)) := by
      gcongr
    have := mul_le_mul_of_nonneg_left this hb'.le
    linarith
  have hkey : padeRec a b 1 a n * (b * Real.exp (a / b) - m)
      = b * R - ((padeRec a b 1 a n * m + b * padeRec a b 1 (-a) n : Int) : ℝ) := by
    rw [hrem]
    push_cast
    ring
  have hD : |padeRec a b 1 a n * (b * Real.exp (a / b) - m)| ≤ |b * Real.exp (a / b) - m| * C ^ n := by
    rw [abs_mul, mul_comm]
    gcongr
  refine le_trans ?_ hD
  rw [hkey]
  by_cases hI : padeRec a b 1 a n * m + b * padeRec a b 1 (-a) n = 0
  · rw [hI]
    refine le_trans (min_le_right _ _) ?_
    rw [Int.cast_zero, sub_zero]
    exact le_trans (by gcongr) (le_abs_self _)
  · refine le_trans (min_le_left _ _) ?_
    have h1 : (1 : ℝ) ≤ |((padeRec a b 1 a n * m + b * padeRec a b 1 (-a) n : Int) : ℝ)| := by
      exact_mod_cast Int.one_le_abs hI
    have hP0 : 0 ≤ P := by
      have := padeW_nonneg (a := a) hb
      positivity
    have hR0 : 0 ≤ b * R := by
      have : 0 ≤ R := le_trans (by positivity) hRl
      positivity
    have h2 := abs_sub_abs_le_abs_sub ((padeRec a b 1 a n * m + b * padeRec a b 1 (-a) n : Int) : ℝ) (b * R)
    rw [abs_sub_comm, abs_of_nonneg hR0] at h2
    linarith

end Pade

/-! ### At scale 10^18 -/

/-- `(n / 3)^n ≤ n!`. -/
theorem pow_le_factorial (n : Nat) : ((n : ℝ) / 3) ^ n ≤ n.factorial := by
  have h := Real.pow_div_factorial_le_exp (n : ℝ) (Nat.cast_nonneg n) n
  have hf : (0 : ℝ) < n.factorial := by exact_mod_cast n.factorial_pos
  rw [div_le_iff₀ hf] at h
  have he : Real.exp (n : ℝ) ≤ 3 ^ n := by
    rw [← mul_one (n : ℝ), Real.exp_nat_mul]
    exact pow_le_pow_left₀ (Real.exp_pos _).le (by linarith [Real.exp_one_lt_d9]) n
  rw [div_pow, div_le_iff₀ (by positivity), mul_comm]
  exact h.trans (by gcongr)

/-- How near `y` comes to an integer, in terms of an `n` of which only the size matters. -/
theorem expReal_gap {k : Int} (h0 : k ≠ 0) (hk : k.natAbs ≤ 136 * 10 ^ 18) {n : Nat} (hn : n = 10 ^ 24) (m : Int) :
    (1 / 10 ^ 15 : ℝ) ≤ |expReal k - m| * (10 ^ 86) ^ n := by
  have hkR : |(k : ℝ)| ≤ 136 * 10 ^ 18 := by
    have : ((k.natAbs : Int) : ℝ) = |(k : ℝ)| := by simp
    rw [← this]; exact_mod_cast hk
  have hk1 : (1 : ℝ) ≤ |(k : ℝ)| := by exact_mod_cast Int.one_le_abs h0
  have hnR : (n : ℝ) = 10 ^ 24 := by rw [hn]; norm_num
  have hn1 : 85 ≤ n := by rw [hn]; norm_num
  have hk2 : (1 : ℝ) ≤ k ^ 2 := by rw [← sq_abs]; nlinarith
  have hk2' : (k : ℝ) ^ 2 ≤ (136 * 10 ^ 18) ^ 2 := by rw [← sq_abs]; gcongr
  have hk2i : k ^ 2 ≤ (136 * 10 ^ 18) ^ 2 := by exact_mod_cast hk2'
  have hW : padeW k (10 ^ 18) ≤ 10 ^ 22 := by
    unfold padeW; rw [div_le_iff₀ (by positivity)]; push_cast; nlinarith
  have hW' : 1 / (2 * 10 ^ 18) ≤ padeW k (10 ^ 18) := by
    unfold padeW; push_cast; rw [div_le_div_iff₀ (by positivity) (by positivity)]; linarith
  have hO : ((10 : ℝ) ^ 24 / 3) ^ n ≤ oddProd n := by
    rw [← hnR]; exact (pow_le_factorial n).trans (by exact_mod_cast factorial_le_oddProd n)
  have hO' : (oddProd n : ℝ) ≤ (2 * 10 ^ 24) ^ n := by
    rw [← hnR]; exact_mod_cast oddProd_le_pow (le_refl n)
  have hOp : (0 : ℝ) < oddProd n := by exact_mod_cast oddProd_pos n
  have hWp : 0 < padeW k (10 ^ 18) := lt_of_lt_of_le (by positivity) hW'
  have hq := abs_le.mp hkR
  have he : Real.exp (k / ((10 ^ 18 : Int) : ℝ)) ≤ 3 ^ 136 := by
    calc Real.exp (k / ((10 ^ 18 : Int) : ℝ)) ≤ Real.exp ((136 : Nat) * 1) := by
          gcongr; push_cast; rw [div_le_iff₀ (by positivity)]; linarith
      _ = Real.exp 1 ^ 136 := Real.exp_nat_mul _ _
      _ ≤ 3 ^ 136 := pow_le_pow_left₀ (Real.exp_pos _).le (by linarith [Real.exp_one_lt_d9]) _
  have he' : 1 / 3 ^ 68 ≤ Real.exp (padeZ k (10 ^ 18)) := by
    calc (1 : ℝ) / 3 ^ 68 ≤ 1 / Real.exp 1 ^ 68 := by
          gcongr; linarith [Real.exp_one_lt_d9]
      _ = Real.exp (-((68 : Nat) * 1)) := by rw [Real.exp_neg, Real.exp_nat_mul, one_div]
      _ ≤ Real.exp (padeZ k (10 ^ 18)) := by
          gcongr; unfold padeZ; push_cast; rw [le_div_iff₀ (by positivity)]; linarith
  have hP : padeW k (10 ^ 18) ^ n / oddProd n ≤ 1 / 10 ^ 85 := by
    calc padeW k (10 ^ 18) ^ n / oddProd n ≤ (10 ^ 22) ^ n / ((10 : ℝ) ^ 24 / 3) ^ n :=
          div_le_div₀ (by positivity) (by gcongr) (by positivity) hO
      _ = (3 / 100 : ℝ) ^ n := by rw [← div_pow]; norm_num
      _ ≤ (1 / 10 : ℝ) ^ n := pow_le_pow_left₀ (by norm_num) (by norm_num) n
      _ ≤ (1 / 10 : ℝ) ^ 85 := pow_le_pow_of_le_one (by norm_num) (by norm_num) hn1
      _ = 1 / 10 ^ 85 := by norm_num
  have hP' : 1 / (10 ^ 43) ^ n ≤ padeW k (10 ^ 18) ^ n / oddProd n := by
    calc (1 : ℝ) / (10 ^ 43) ^ n ≤ 1 / (4 * 10 ^ 42) ^ n := by gcongr; norm_num
      _ = (1 / (2 * 10 ^ 18)) ^ n / (2 * 10 ^ 24) ^ n := by rw [← div_pow, one_div, ← inv_pow]; norm_num
      _ ≤ _ := by gcongr
  have hC := exp_gap (a := k) (b := 10 ^ 18) (by norm_num) (C := 10 ^ 43) n (by rw [hn]; push_cast; linarith)
    (by have : |k| = k.natAbs := Int.abs_eq_natAbs k
        omega)
    (by
      have hb : ((10 ^ 18 : Int) : ℝ) = 10 ^ 18 := by norm_num
      rw [hb] at he ⊢
      calc (10 : ℝ) ^ 18 * ((Real.exp (k / 10 ^ 18) + 1) * (padeW k (10 ^ 18) ^ n / oddProd n))
          ≤ 10 ^ 18 * ((3 ^ 136 + 1) * (1 / 10 ^ 85)) := by gcongr
        _ ≤ 1 / 2 := by norm_num) m
  have hCp : (1 : ℝ) ≤ (10 ^ 43) ^ n := one_le_pow₀ (by norm_num)
  have hmin : 1 / 10 ^ 15 / (10 ^ 43) ^ n
      ≤ min (1 / 2) (((10 ^ 18 : Int) : ℝ) * (2 * Real.exp (padeZ k (10 ^ 18)) * (padeW k (10 ^ 18) ^ n / oddProd n))) := by
    refine le_min ?_ ?_
    · rw [div_le_iff₀ (by positivity)]
      exact le_trans (by norm_num) (le_mul_of_one_le_right (by norm_num) hCp)
    · rw [show ((10 ^ 18 : Int) : ℝ) = 10 ^ 18 by norm_num]
      calc (1 : ℝ) / 10 ^ 15 / (10 ^ 43) ^ n ≤ 10 ^ 18 * (2 * (1 / 3 ^ 68)) * (1 / (10 ^ 43) ^ n) := by
            rw [div_eq_mul_one_div (1 / 10 ^ 15)]; gcongr; norm_num
        _ ≤ 10 ^ 18 * (2 * Real.exp (padeZ k (10 ^ 18))) * (padeW k (10 ^ 18) ^ n / oddProd n) := by gcongr
        _ = _ := by ring
  have hfin := hmin.trans hC
  rw [div_le_iff₀ (by positivity)] at hfin
  unfold expReal
  push_cast at hfin
  calc _ ≤ _ := hfin
    _ = _ := by rw [mul_assoc, ← mul_pow]; norm_num

/-- A sum of at least `10^26` terms is decided (R103): its bracket is narrower than the distance of `y` to any integer. -/
theorem decided_of_large {k : Int} (hk0 : k ≠ 0) (hlow : EXP_ZERO_FROM < k) (hhigh : k < EXP_OVERFLOW_FROM) {N : Nat}
    (hN : 10 ^ 26 ≤ N) : (expSum k N).decided = true := by
  have hk : k.natAbs ≤ 136 * 10 ^ 18 := by simp only [EXP_ZERO_FROM, EXP_OVERFLOW_FROM] at *; omega
  have hkR : |(k : ℝ)| ≤ 136 * 10 ^ 18 := by
    have : ((k.natAbs : Int) : ℝ) = |(k : ℝ)| := by simp
    rw [← this]; exact_mod_cast hk
  obtain ⟨n, hn⟩ : ∃ n : Nat, n = 10 ^ 24 := ⟨_, rfl⟩
  have hNn : 100 * n ≤ N := by rw [hn]; omega
  have hn1 : 1 ≤ n := by rw [hn]; norm_num
  obtain ⟨hL, hU⟩ := expSum_bracket k N (by simp only [WAD]; omega)
  have hden : (0 : ℝ) < (expSum k N).den := by exact_mod_cast expSum_den_pos k N
  have hNR : (10 : ℝ) ^ 26 ≤ N := by exact_mod_cast hN
  -- the width of the bracket
  have hwidth : ((expSum k N).highNum : ℝ) / (expSum k N).den - ((expSum k N).lowNum : ℝ) / (expSum k N).den
      = 4 * 10 ^ 18 * ((|(k : ℝ)| / 10 ^ 18) ^ N / N.factorial) := by
    have hf : (0 : ℝ) < N.factorial := by exact_mod_cast N.factorial_pos
    rw [← sub_div, div_eq_iff hden.ne', expSum_den]
    simp only [ExpSum.highNum, ExpSum.lowNum, expSum_pow, Int.natAbs_pow]
    have hkc : ((k.natAbs : Int) : ℝ) = |(k : ℝ)| := by simp
    push_cast [WAD] at hkc ⊢
    rw [div_pow]
    field_simp
    ring
  have hsmall : (|(k : ℝ)| / 10 ^ 18) ^ N / N.factorial ≤ 1 / (10 ^ 200) ^ n := by
    calc (|(k : ℝ)| / 10 ^ 18) ^ N / N.factorial ≤ 136 ^ N / (10 ^ 26 / 3) ^ N := by
          refine div_le_div₀ (by positivity) ?_ (by positivity) ?_
          · refine pow_le_pow_left₀ (by positivity) ?_ N
            rw [div_le_iff₀ (by positivity)]
            exact hkR
          · exact le_trans (pow_le_pow_left₀ (by positivity) (by linarith) N) (pow_le_factorial N)
      _ = (408 / 10 ^ 26 : ℝ) ^ N := by rw [← div_pow]; norm_num
      _ ≤ (1 / 10 ^ 2 : ℝ) ^ N := pow_le_pow_left₀ (by norm_num) (by norm_num) N
      _ ≤ (1 / 10 ^ 2 : ℝ) ^ (100 * n) := pow_le_pow_of_le_one (by positivity) (by norm_num) hNn
      _ = 1 / (10 ^ 200) ^ n := by rw [pow_mul, div_pow, one_pow, div_pow, one_pow, ← pow_mul (10 : ℝ)]
  have htiny : 4 * 10 ^ 18 * ((|(k : ℝ)| / 10 ^ 18) ^ N / N.factorial) * (10 ^ 86) ^ n ≤ 1 / 10 ^ 90 := by
    calc _ ≤ 4 * 10 ^ 18 * (1 / (10 ^ 200) ^ n) * (10 ^ 86) ^ n := by gcongr
      _ = 4 * 10 ^ 18 * (1 / 10 ^ 114 : ℝ) ^ n := by
          rw [mul_assoc, one_div, ← inv_pow, ← mul_pow]
          congr 2
          norm_num
      _ ≤ 4 * 10 ^ 18 * (1 / 10 ^ 114 : ℝ) ^ 1 := by
          have : (1 / 10 ^ 114 : ℝ) ^ n ≤ (1 / 10 ^ 114 : ℝ) ^ 1 :=
            pow_le_pow_of_le_one (by positivity) (by norm_num) hn1
          gcongr
      _ ≤ 1 / 10 ^ 90 := by norm_num
  have hbig : (1 : ℝ) ≤ (10 ^ 86) ^ n := one_le_pow₀ (by norm_num)
  -- an integer above the lower end and not above the upper one is too near
  have key : ∀ m : Int, ((expSum k N).lowNum : ℝ) / (expSum k N).den ≤ m →
      (m : ℝ) ≤ ((expSum k N).highNum : ℝ) / (expSum k N).den → False := by
    intro m h1 h2
    have hg := expReal_gap hk0 hk hn m
    have hd : |expReal k - m| ≤ 4 * 10 ^ 18 * ((|(k : ℝ)| / 10 ^ 18) ^ N / N.factorial) := by
      rw [← hwidth, abs_le]; constructor <;> linarith
    have : |expReal k - m| * (10 ^ 86) ^ n ≤ 1 / 10 ^ 90 := le_trans (by gcongr) htiny
    have h3 : (1 : ℝ) / 10 ^ 90 < 1 / 10 ^ 15 := by norm_num
    linarith
  have hlf : ((expSum k N).lowNum : ℝ) / (expSum k N).den < (expSum k N).lowFloor + 1 := by
    rw [div_lt_iff₀ hden]; exact_mod_cast Int.lt_ediv_add_one_mul_self _ (expSum_den_pos k N)
  have hll : ((expSum k N).lowFloor : ℝ) ≤ ((expSum k N).lowNum : ℝ) / (expSum k N).den := by
    rw [le_div_iff₀ hden]; exact_mod_cast Int.ediv_mul_le _ (expSum_den_pos k N).ne'
  have hhf : ((expSum k N).highFloor : ℝ) ≤ ((expSum k N).highNum : ℝ) / (expSum k N).den := by
    rw [le_div_iff₀ hden]; exact_mod_cast Int.ediv_mul_le _ (expSum_den_pos k N).ne'
  have hlh : (expSum k N).lowFloor ≤ (expSum k N).highFloor :=
    Int.ediv_le_ediv (expSum_den_pos k N) (by
      have : ((expSum k N).lowNum : ℝ) / (expSum k N).den ≤ ((expSum k N).highNum : ℝ) / (expSum k N).den := hL.trans hU
      rw [div_le_div_iff_of_pos_right hden] at this
      exact_mod_cast this)
  have heq : (expSum k N).lowFloor = (expSum k N).highFloor := by
    by_contra hne
    have : (expSum k N).lowFloor + 1 ≤ (expSum k N).highFloor := by omega
    have this' : ((expSum k N).lowFloor : ℝ) + 1 ≤ (expSum k N).highFloor := by exact_mod_cast this
    exact key ((expSum k N).lowFloor + 1) (by push_cast; linarith) (by push_cast; linarith)
  have hpos : 0 < (expSum k N).lowNum := by
    by_contra hle
    have h1 : ((expSum k N).lowNum : ℝ) / (expSum k N).den ≤ 0 := by
      rw [div_le_iff₀ hden, zero_mul]; exact_mod_cast not_lt.mp hle
    have := one_le_expReal hlow
    exact key 0 (by simpa using h1) (by push_cast; linarith)
  simp only [ExpSum.decided, Bool.and_eq_true, beq_iff_eq, decide_eq_true_eq]
  exact ⟨heq, hpos⟩

end Sys2Proof.Machine
end

