-- ==== Sys2Proof/Laws/Expwad.lean ====
section
/-! SUPPORT. Laws/Expwad.lean: what the configured exponential answers (spec R100 to R106): the search of R103 always
decides and finds the floor, so `EXPWAD_REF` is the function R101 defines; and what each kind of exponential can answer. -/

namespace Sys2Proof.Machine

/-! ### The search -/

/-- The search finds the floor of `y` if one of its tests decides (R103). -/
theorem expSearch_eq_floor {k : Int} (hk : k.natAbs ≤ 136 * 10 ^ 18) (rounds : Nat) :
    ∀ n : Nat, 272 ≤ n → (∃ r < rounds, (expSum k (2 ^ r * n)).decided = true) → expSearch k rounds n = ⌊expReal k⌋ := by
  induction rounds with
  | zero => rintro n - ⟨r, hr, -⟩; omega
  | succ rounds ih =>
    rintro n hn ⟨r, hr, hd⟩
    rw [expSearch]
    split
    · exact (floor_of_decided k n (by simp only [WAD]; omega) ‹_›).symm
    · rename_i hnd
      obtain _ | r := r
      · exact absurd (by simpa using hd) hnd
      · refine ih (2 * n) (by omega) ⟨r, by omega, ?_⟩
        rwa [pow_succ, mul_assoc] at hd

/-- The search of `EXPWAD_REF` always finds the floor of `y` (R101, R103). -/
theorem expSearch_floor {k : Int} (h0 : k ≠ 0) (h : EXP_ZERO_FROM < k) (h' : k < EXP_OVERFLOW_FROM) :
    expSearch k EXP_ROUNDS 400 = ⌊expReal k⌋ :=
  expSearch_eq_floor (by simp only [EXP_ZERO_FROM, EXP_OVERFLOW_FROM] at *; omega) EXP_ROUNDS 400 (by norm_num)
    ⟨79, by decide, decided_of_large h0 h h' (by norm_num)⟩

/-! ### EXPWAD_REF at every operand -/

theorem expwadRef_low {k : Int} (h : k ≤ EXP_ZERO_FROM) : expwadRef k = .ok 0 := by
  simp [expwadRef, h]

theorem expwadRef_high {k : Int} (h : EXP_OVERFLOW_FROM ≤ k) : expwadRef k = .err .arithmeticOverflow := by
  have : ¬(k ≤ EXP_ZERO_FROM) := by
    simp only [EXP_ZERO_FROM, EXP_OVERFLOW_FROM] at *
    omega
  simp [expwadRef, h, this]

theorem expwadRef_zero : expwadRef 0 = .ok WAD := by decide

theorem expReal_zero : expReal 0 = 10 ^ 18 := by simp [expReal]

/-- Between the thresholds `EXPWAD_REF` answers the floor of `y` (R101), a value in [1, MAX]. -/
theorem expwadRef_mid {k : Int} (h : EXP_ZERO_FROM < k) (h' : k < EXP_OVERFLOW_FROM) :
    expwadRef k = .ok ⌊expReal k⌋ ∧ 1 ≤ ⌊expReal k⌋ ∧ ⌊expReal k⌋ ≤ MAX := by
  have hpos : 1 ≤ ⌊expReal k⌋ := by
    rw [Int.le_floor]
    exact_mod_cast one_le_expReal h
  have hmax : ⌊expReal k⌋ ≤ MAX := by
    have h1 := expReal_le_MAX h'
    have : (⌊expReal k⌋ : ℝ) ≤ MAX := by linarith [Int.floor_le (expReal k)]
    exact_mod_cast this
  refine ⟨?_, hpos, hmax⟩
  by_cases h0 : k = 0
  · subst h0
    rw [expwadRef_zero, expReal_zero]
    norm_num [WAD]
  · simp only [expwadRef, not_le.mpr h, if_false, ge_iff_le, not_le.mpr h', h0]
    rw [expSearch_floor h0 h h']
    exact chk_of_range (le_trans (by decide) hpos) hmax

/-! ### The configured exponential -/

/-- The only error of an exponential that meets R100 is `ArithmeticOverflow`. -/
theorem F_exp_err {c : Config} (hc : c.expwad.lawful = true) {k : Int} {e : FnError} (h : F_exp c k = .err e) :
    e = .arithmeticOverflow := by
  unfold F_exp at h
  split at h
  · unfold expwadRef at h
    split at h
    · cases h
    split at h
    · cases h; rfl
    split at h
    · cases h
    · exact chk_eq_err h
  · unfold expwadAlt at h
    split at h
    · cases h
    split at h
    · cases h; rfl
    · exact chk_eq_err h
  · split at h
    · cases h
    · cases h; rfl
  · rename_i he
    rw [he] at hc
    cases hc
  · rename_i he
    rw [he] at hc
    cases hc

theorem unrulyOutcome_range {a : Except FnError Word} {v : Int} (h : unrulyOutcome a = .ok v) : MIN ≤ v ∧ v ≤ MAX := by
  cases a with
  | ok b => cases h; exact ⟨MIN_le_sval _, sval_le_MAX _⟩
  | error e => cases h

/-- Every value of the configured exponential is in [MIN, MAX] (R100). -/
theorem F_exp_range {c : Config} {k v : Int} (h : F_exp c k = .ok v) : MIN ≤ v ∧ v ≤ MAX := by
  have hchk : ∀ u : Int, chk u = .ok v → MIN ≤ v ∧ v ≤ MAX := by
    intro u hu
    obtain ⟨h1, h2, rfl⟩ := chk_eq_ok_iff.mp hu
    exact ⟨h1, h2⟩
  unfold F_exp at h
  split at h
  · unfold expwadRef at h
    split at h
    · cases h; decide
    split at h
    · cases h
    split at h
    · cases h; decide
    · exact hchk _ h
  · unfold expwadAlt at h
    split at h
    · cases h; decide
    split at h
    · cases h
    · exact hchk _ h
  · split at h
    · cases h
      exact ⟨MIN_le_sval _, sval_le_MAX _⟩
    · cases h
  · exact unrulyOutcome_range h
  · split at h
    · exact unrulyOutcome_range h
    · cases h

theorem expwadRef_returns (k : Int) : expwadRef k ≠ .noReturn := by
  unfold expwadRef
  split_ifs <;> first | exact chk_returns _ | simp

theorem expwadAlt_returns (k : Int) : expwadAlt k ≠ .noReturn := by
  unfold expwadAlt
  split_ifs <;> first | exact chk_returns _ | simp

theorem unrulyOutcome_returns (a : Except FnError Word) : unrulyOutcome a ≠ .noReturn := by
  cases a <;> simp [unrulyOutcome]

/-- A total exponential returns (R100 (a)). -/
theorem F_exp_returns {c : Config} (hc : c.expwad.total = true) (k : Int) : F_exp c k ≠ .noReturn := by
  unfold F_exp
  split
  · exact expwadRef_returns k
  · exact expwadAlt_returns k
  · split <;> simp
  · exact unrulyOutcome_returns _
  · rename_i he
    rw [he] at hc
    cases hc

end Sys2Proof.Machine
end

