-- ==== Sys2Proof/Laws/Erfc.lean ====
section
/-! SUPPORT. Laws/Erfc.lean: the value and the range of each stage of `F_poly`, `F_erfc` and `F_cdf` (spec R112 to
R120, R130 to R136). -/

namespace Sys2Proof.Machine

/-! ### Division facts -/

theorem tdiv_mono_nonneg {a b d : Int} (ha : 0 ≤ a) (hab : a ≤ b) (hd : 0 < d) : Int.tdiv a d ≤ Int.tdiv b d := by
  rw [Int.tdiv_eq_ediv_of_nonneg ha, Int.tdiv_eq_ediv_of_nonneg (le_trans ha hab)]
  exact Int.ediv_le_ediv hd hab

theorem tdiv_nonneg {a d : Int} (ha : 0 ≤ a) (hd : 0 ≤ d) : 0 ≤ Int.tdiv a d := Int.tdiv_nonneg ha hd

/-- The rescaled product with a factor in [0, WAD] lies between 0 and the other factor. -/
theorem tdiv_mul_WAD_nonneg {t s : Int} (ht : 0 ≤ t) (ht' : t ≤ WAD) (hs : 0 ≤ s) :
    0 ≤ Int.tdiv (t * s) WAD ∧ Int.tdiv (t * s) WAD ≤ s := by
  have hW : (0 : Int) < WAD := by decide
  refine ⟨Int.tdiv_nonneg (Int.mul_nonneg ht hs) hW.le, ?_⟩
  have h1 : t * s ≤ s * WAD := by rw [mul_comm s]; exact Int.mul_le_mul_of_nonneg_right ht' hs
  have h2 := tdiv_mono_nonneg (Int.mul_nonneg ht hs) h1 hW
  rwa [Int.mul_tdiv_cancel _ hW.ne'] at h2

theorem tdiv_mul_WAD_nonpos {t s : Int} (ht : 0 ≤ t) (ht' : t ≤ WAD) (hs : s ≤ 0) :
    s ≤ Int.tdiv (t * s) WAD ∧ Int.tdiv (t * s) WAD ≤ 0 := by
  have h := tdiv_mul_WAD_nonneg ht ht' (Int.neg_nonneg_of_nonpos hs)
  rw [mul_neg, Int.neg_tdiv] at h
  omega

/-- `|tdiv (t * s) WAD| ≤ |s|` for `0 ≤ t ≤ WAD`, with the sign of `s`. -/
theorem tdiv_mul_WAD_bounds {t s : Int} (ht : 0 ≤ t) (ht' : t ≤ WAD) :
    min s 0 ≤ Int.tdiv (t * s) WAD ∧ Int.tdiv (t * s) WAD ≤ max s 0 := by
  rcases le_total 0 s with hs | hs
  · have := tdiv_mul_WAD_nonneg ht ht' hs
    simp only [min_eq_right hs, max_eq_left hs]
    exact this
  · have := tdiv_mul_WAD_nonpos ht ht' hs
    simp only [min_eq_left hs, max_eq_right hs]
    exact this

/-- A product of a factor in [0, WAD] with a factor below 10^40 in magnitude is representable. -/
theorem mul_range {t s : Int} (ht : 0 ≤ t) (ht' : t ≤ WAD) (hs : -10 ^ 40 ≤ s) (hs' : s ≤ 10 ^ 40) :
    MIN ≤ t * s ∧ t * s ≤ MAX := by
  have h1 : (t * s).natAbs ≤ 10 ^ 18 * 10 ^ 40 := by
    rw [Int.natAbs_mul]
    apply Nat.mul_le_mul
    · simp only [WAD] at ht'
      omega
    · omega
  simp only [MIN, MAX]
  omega

theorem F_mulwad_unit {t s : Int} (ht : 0 ≤ t) (ht' : t ≤ WAD) (hs : -10 ^ 40 ≤ s) (hs' : s ≤ 10 ^ 40) :
    F_mulwad t s = .ok (Int.tdiv (t * s) WAD) := by
  rw [F_mulwad_spec, if_pos (mul_range ht ht' hs hs')]

/-! ### The Horner chain -/

/-- The value of one Horner step that raises no error. -/
def hornerValue (t coeff s : Int) : Int := coeff + Int.tdiv (t * s) WAD

/-- One Horner step for `0 ≤ t ≤ WAD`: its value, and the range of its value (R113). -/
theorem hornerStep_unit {t coeff s lo hi : Int} (ht : 0 ≤ t) (ht' : t ≤ WAD) (hlo : lo ≤ s) (hhi : s ≤ hi)
    (hlo' : -10 ^ 30 ≤ lo) (hhi' : hi ≤ 10 ^ 30) (hc : -10 ^ 30 ≤ coeff) (hc' : coeff ≤ 10 ^ 30) :
    hornerStep t coeff s = .ok (hornerValue t coeff s)
      ∧ coeff + min lo 0 ≤ hornerValue t coeff s ∧ hornerValue t coeff s ≤ coeff + max hi 0 := by
  have hb := tdiv_mul_WAD_bounds (s := s) ht ht'
  unfold hornerStep
  rw [F_mulwad_unit ht ht' (by omega) (by omega)]
  unfold hornerValue
  generalize Int.tdiv (t * s) WAD = q at *
  refine ⟨chk_of_range (by simp only [MIN]; omega) (by simp only [MAX]; omega), by omega, by omega⟩

/-- The value of `F_poly` when no step raises an error (R112). -/
def polyValue (c : Config) (t : Int) : Int :=
  let s := hornerValue t c.I c.J
  let s := hornerValue t c.H s
  let s := hornerValue t c.G s
  let inner := hornerValue t c.F s
  let s := hornerValue t c.E inner
  let s := hornerValue t c.D s
  let s := hornerValue t c.C s
  let outer := hornerValue t c.B s
  Int.tdiv (t * outer) WAD

/-- What R111 says of each number of a configuration. -/
theorem admissible_bounds {c : Config} (h : c.admissible = true) :
    (-2 * 10 ^ 18 ≤ c.A ∧ c.A ≤ 2 * 10 ^ 18) ∧ (-2 * 10 ^ 18 ≤ c.B ∧ c.B ≤ 2 * 10 ^ 18)
    ∧ (-2 * 10 ^ 18 ≤ c.C ∧ c.C ≤ 2 * 10 ^ 18) ∧ (-2 * 10 ^ 18 ≤ c.D ∧ c.D ≤ 2 * 10 ^ 18)
    ∧ (-2 * 10 ^ 18 ≤ c.E ∧ c.E ≤ 2 * 10 ^ 18) ∧ (-2 * 10 ^ 18 ≤ c.F ∧ c.F ≤ 2 * 10 ^ 18)
    ∧ (-2 * 10 ^ 18 ≤ c.G ∧ c.G ≤ 2 * 10 ^ 18) ∧ (-2 * 10 ^ 18 ≤ c.H ∧ c.H ≤ 2 * 10 ^ 18)
    ∧ (-2 * 10 ^ 18 ≤ c.I ∧ c.I ≤ 2 * 10 ^ 18) ∧ (-2 * 10 ^ 18 ≤ c.J ∧ c.J ≤ 2 * 10 ^ 18)
    ∧ (1400000000000000000 ≤ c.SQRT2 ∧ c.SQRT2 ≤ 1500000000000000000) := by
  simp only [Config.admissible, Config.coefficientOk, Bool.and_eq_true, decide_eq_true_eq] at h
  obtain ⟨h, -⟩ := h
  omega

/-- For `0 ≤ t ≤ WAD` and an admissible configuration `F_poly` raises no error, and its value is at most 18*10^18 in
magnitude (R113). -/
theorem F_poly_unit {c : Config} (hc : c.admissible = true) {t : Int} (ht : 0 ≤ t) (ht' : t ≤ WAD) :
    F_poly c t = .ok (polyValue c t) ∧ -18 * 10 ^ 18 ≤ polyValue c t ∧ polyValue c t ≤ 18 * 10 ^ 18 := by
  obtain ⟨-, hB, hC, hD, hE, hF, hG, hH, hI, hJ, -⟩ := admissible_bounds hc
  obtain ⟨e1, l1, u1⟩ := hornerStep_unit (coeff := c.I) ht ht' hJ.1 hJ.2 (by omega) (by omega) (by omega) (by omega)
  obtain ⟨e2, l2, u2⟩ := hornerStep_unit (coeff := c.H) (lo := -4 * 10 ^ 18) (hi := 4 * 10 ^ 18)
    (s := hornerValue t c.I c.J) ht ht' (by omega) (by omega) (by omega) (by omega) (by omega) (by omega)
  obtain ⟨e3, l3, u3⟩ := hornerStep_unit (coeff := c.G) (lo := -6 * 10 ^ 18) (hi := 6 * 10 ^ 18)
    (s := hornerValue t c.H (hornerValue t c.I c.J)) ht ht' (by omega) (by omega) (by omega) (by omega) (by omega)
    (by omega)
  generalize hs3 : hornerValue t c.G (hornerValue t c.H (hornerValue t c.I c.J)) = s3 at *
  obtain ⟨e4, l4, u4⟩ := hornerStep_unit (coeff := c.F) (lo := -8 * 10 ^ 18) (hi := 8 * 10 ^ 18) (s := s3) ht ht'
    (by omega) (by omega) (by omega) (by omega) (by omega) (by omega)
  obtain ⟨e5, l5, u5⟩ := hornerStep_unit (coeff := c.E) (lo := -10 * 10 ^ 18) (hi := 10 * 10 ^ 18)
    (s := hornerValue t c.F s3) ht ht' (by omega) (by omega) (by omega) (by omega) (by omega) (by omega)
  generalize hs5 : hornerValue t c.E (hornerValue t c.F s3) = s5 at *
  obtain ⟨e6, l6, u6⟩ := hornerStep_unit (coeff := c.D) (lo := -12 * 10 ^ 18) (hi := 12 * 10 ^ 18) (s := s5) ht ht'
    (by omega) (by omega) (by omega) (by omega) (by omega) (by omega)
  obtain ⟨e7, l7, u7⟩ := hornerStep_unit (coeff := c.C) (lo := -14 * 10 ^ 18) (hi := 14 * 10 ^ 18)
    (s := hornerValue t c.D s5) ht ht' (by omega) (by omega) (by omega) (by omega) (by omega) (by omega)
  generalize hs7 : hornerValue t c.C (hornerValue t c.D s5) = s7 at *
  obtain ⟨e8, l8, u8⟩ := hornerStep_unit (coeff := c.B) (lo := -16 * 10 ^ 18) (hi := 16 * 10 ^ 18) (s := s7) ht ht'
    (by omega) (by omega) (by omega) (by omega) (by omega) (by omega)
  have hv : polyValue c t = Int.tdiv (t * hornerValue t c.B s7) WAD := by
    simp only [polyValue, hs3, hs5, hs7]
  have hb := tdiv_mul_WAD_bounds (s := hornerValue t c.B s7) ht ht'
  refine ⟨?_, ?_, ?_⟩
  · simp only [F_poly, e1, e2, e3, e4, e5, e6, e7, e8, bind_ok, hv]
    exact F_mulwad_unit ht ht' (by omega) (by omega)
  · rw [hv]; omega
  · rw [hv]; omega

/-- The exponent polynomial with the default coefficients lies between 0 and 1.92 for `0 ≤ t ≤ WAD` (R119). -/
theorem polyValue_default_le {t : Int} (ht : 0 ≤ t) (ht' : t ≤ WAD) :
    polyValue Config.default t ≤ 1920000000000000000 ∧ 0 ≤ polyValue Config.default t := by
  obtain ⟨_, l1, u1⟩ := hornerStep_unit (coeff := Config.default.I) (s := Config.default.J)
    (lo := 170872770000000000) (hi := 170872770000000000) ht ht' (by decide) (by decide) (by decide) (by decide)
    (by decide) (by decide)
  obtain ⟨_, l2, u2⟩ := hornerStep_unit (coeff := Config.default.H) (lo := -822152230000000000) (hi := 0)
    (s := hornerValue t Config.default.I Config.default.J) ht ht' (by simp only [Config.default] at *; omega)
    (by simp only [Config.default] at *; omega) (by decide) (by decide) (by decide) (by decide)
  generalize hs2 : hornerValue t Config.default.H (hornerValue t Config.default.I Config.default.J) = s2 at *
  obtain ⟨_, l3, u3⟩ := hornerStep_unit (coeff := Config.default.G) (lo := 0) (hi := 1488515870000000000) (s := s2)
    ht ht' (by simp only [Config.default] at *; omega)
    (by simp only [Config.default] at *; omega) (by decide) (by decide) (by decide) (by decide)
  obtain ⟨_, l4, u4⟩ := hornerStep_unit (coeff := Config.default.F) (lo := -1135203980000000000)
    (hi := 353311890000000000) (s := hornerValue t Config.default.G s2)
    ht ht' (by simp only [Config.default] at *; omega)
    (by simp only [Config.default] at *; omega) (by decide) (by decide) (by decide) (by decide)
  generalize hs4 : hornerValue t Config.default.F (hornerValue t Config.default.G s2) = s4 at *
  obtain ⟨_, l5, u5⟩ := hornerStep_unit (coeff := Config.default.E) (lo := -856335910000000000)
    (hi := 632179960000000000) (s := s4)
    ht ht' (by simp only [Config.default] at *; omega)
    (by simp only [Config.default] at *; omega) (by decide) (by decide) (by decide) (by decide)
  obtain ⟨_, l6, u6⟩ := hornerStep_unit (coeff := Config.default.D) (lo := -1042623970000000000)
    (hi := 445891900000000000) (s := hornerValue t Config.default.E s4)
    ht ht' (by simp only [Config.default] at *; omega)
    (by simp only [Config.default] at *; omega) (by decide) (by decide) (by decide) (by decide)
  generalize hs6 : hornerValue t Config.default.D (hornerValue t Config.default.E s4) = s6 at *
  obtain ⟨_, l7, u7⟩ := hornerStep_unit (coeff := Config.default.C) (lo := -945839790000000000)
    (hi := 542676080000000000) (s := s6)
    ht ht' (by simp only [Config.default] at *; omega)
    (by simp only [Config.default] at *; omega) (by decide) (by decide) (by decide) (by decide)
  obtain ⟨_, l8, u8⟩ := hornerStep_unit (coeff := Config.default.B) (lo := -571747830000000000)
    (hi := 916768040000000000) (s := hornerValue t Config.default.C s6)
    ht ht' (by simp only [Config.default] at *; omega)
    (by simp only [Config.default] at *; omega) (by decide) (by decide) (by decide) (by decide)
  have hv : polyValue Config.default t
      = Int.tdiv (t * hornerValue t Config.default.B (hornerValue t Config.default.C s6)) WAD := by
    simp only [polyValue, hs2, hs4, hs6]
  have hb := tdiv_mul_WAD_bounds (s := hornerValue t Config.default.B (hornerValue t Config.default.C s6)) ht ht'
  rw [hv]
  simp only [Config.default] at *
  constructor <;> omega

/-! ### Steps 3 and 5 -/

/-- The value of `t` for a magnitude below ERFC_BOUND (R116, R119). -/
def erfcTValue (z : Int) : Int := Int.tdiv WAD2 (WAD + Int.tdiv z 2)

theorem erfcT_value {z : Int} (h : 0 ≤ z) (h' : z < ERFC_BOUND) :
    erfcT z = .ok (erfcTValue z) ∧ 0 < erfcTValue z ∧ erfcTValue z ≤ WAD := by
  have hq : Int.tdiv (z * WAD) TWO_WAD = Int.tdiv z 2 := by
    have : TWO_WAD = 2 * WAD := by decide
    rw [this]
    exact Int.mul_tdiv_mul_of_pos_left _ _ (by decide)
  have hq2 : Int.tdiv z 2 = z / 2 := Int.tdiv_eq_ediv_of_nonneg h
  simp only [ERFC_BOUND] at h'
  have hd : 0 < WAD + z / 2 := by simp only [WAD]; omega
  have hv : erfcTValue z = WAD2 / (WAD + z / 2) := by
    unfold erfcTValue
    rw [hq2, Int.tdiv_eq_ediv_of_nonneg (by decide)]
  unfold erfcT
  rw [F_muldiv_ok (by simp only [WAD, MIN]; omega) (by simp only [WAD, MAX]; omega) (by decide) (by decide), bind_ok,
    hq, hq2, chk_of_range (by simp only [WAD, MIN]; omega) (by simp only [WAD, MAX]; omega), bind_ok,
    F_muldiv_ok (by decide) (by decide) (by simp only [WAD]; omega) (by simp only [WAD]; omega),
    Int.tdiv_eq_ediv_of_nonneg (by decide), hv]
  refine ⟨rfl, ?_, ?_⟩
  · exact (Int.le_ediv_iff_mul_le hd).mpr (by simp only [WAD, WAD2]; omega)
  · exact Int.ediv_le_of_le_mul hd (by simp only [WAD, WAD2]; omega)

/-- The smallest `t` (R119). -/
theorem erfcTValue_ge {z : Int} (h : 0 ≤ z) (h' : z < ERFC_BOUND) : 253164556962025316 ≤ erfcTValue z := by
  simp only [ERFC_BOUND] at h'
  unfold erfcTValue
  rw [Int.tdiv_eq_ediv_of_nonneg h, Int.tdiv_eq_ediv_of_nonneg (by decide)]
  have hd : 0 < WAD + z / 2 := by simp only [WAD]; omega
  exact (Int.le_ediv_iff_mul_le hd).mpr (by simp only [WAD, WAD2]; omega)

/-- The value of `k` (R117). -/
def erfcExponentValue (c : Config) (z step : Int) : Int := -Int.tdiv (z * z) WAD - c.A + step

theorem square_bounds {z : Int} (h : 0 ≤ z) (h' : z < ERFC_BOUND) :
    0 ≤ z * z ∧ z * z ≤ 5899999999999999999 * 5899999999999999999 := by
  simp only [ERFC_BOUND] at h'
  constructor
  · positivity
  · have hz : z ≤ 5899999999999999999 := by omega
    exact Int.mul_le_mul hz hz h (by norm_num)

theorem erfcExponent_value {c : Config} {z step : Int} (h : 0 ≤ z) (h' : z < ERFC_BOUND)
    (hA : -2 * 10 ^ 18 ≤ c.A ∧ c.A ≤ 2 * 10 ^ 18) (hs : -18 * 10 ^ 18 ≤ step) (hs' : step ≤ 18 * 10 ^ 18) :
    erfcExponent c z step = .ok (erfcExponentValue c z step)
      ∧ -34809999999999999988 - c.A + step ≤ erfcExponentValue c z step
      ∧ erfcExponentValue c z step ≤ -c.A + step := by
  obtain ⟨h0, h1⟩ := square_bounds h h'
  have hzz0 : 0 ≤ Int.tdiv (z * z) WAD := tdiv_nonneg h0 (by decide)
  have hzz1 : Int.tdiv (z * z) WAD ≤ 34809999999999999988 :=
    le_trans (tdiv_mono_nonneg h0 h1 (by decide)) (by decide)
  unfold erfcExponent erfcExponentValue
  rw [F_mulwad_spec, if_pos ⟨by simp only [MIN]; omega, by simp only [MAX]; omega⟩]
  generalize Int.tdiv (z * z) WAD = zz at *
  rw [bind_ok, chk_of_range (by simp only [MIN]; omega) (by simp only [MAX]; omega), bind_ok,
    chk_of_range (by simp only [MIN]; omega) (by simp only [MAX]; omega), bind_ok,
    chk_of_range (by simp only [MIN]; omega) (by simp only [MAX]; omega)]
  exact ⟨rfl, by omega, by omega⟩

/-! ### The evaluated branch of `F_erfc` with the default configuration -/

/-- At the largest exponent the default configuration reaches, `y < 2*10^18 - 1` (R119). -/
theorem expReal_bound : expReal 660000000000000000 ≤ 1999999999999999998 := by
  have hu := (expSum_bracket 660000000000000000 400 (by decide)).2
  have hden : (0 : ℝ) < (expSum 660000000000000000 400).den := by exact_mod_cast expSum_den_pos _ 400
  refine le_trans hu ?_
  rw [div_le_iff₀ hden]
  exact_mod_cast (by decide +kernel :
    (expSum 660000000000000000 400).highNum ≤ 1999999999999999998 * (expSum 660000000000000000 400).den)

/-- At the smallest exponent the default configuration can reach, `y ≥ 215`. -/
theorem expReal_bound_low : 215 ≤ expReal (-36075512229999999988) := by
  have hl := (expSum_bracket (-36075512229999999988) 400 (by decide)).1
  have hden : (0 : ℝ) < (expSum (-36075512229999999988) 400).den := by exact_mod_cast expSum_den_pos _ 400
  refine le_trans ?_ hl
  rw [le_div_iff₀ hden]
  exact_mod_cast (by decide +kernel :
    215 * (expSum (-36075512229999999988) 400).den ≤ (expSum (-36075512229999999988) 400).lowNum)

/-- With the default configuration steps 3 to 7 give a value in [0, 2*WAD], neither end being near, for every
magnitude below ERFC_BOUND (R119, R120). -/
theorem erfcR_default {z : Int} (h : 0 ≤ z) (h' : z < ERFC_BOUND) :
    ∃ e r : Int, F_exp Config.default
        (erfcExponentValue Config.default z (polyValue Config.default (erfcTValue z))) = .ok e
      ∧ r = Int.tdiv (erfcTValue z * e) WAD ∧ erfcR Config.default z = .ok r ∧ 2 ≤ r ∧ r ≤ TWO_WAD - 2 := by
  obtain ⟨ht, ht0, ht1⟩ := erfcT_value h h'
  obtain ⟨hp, hpl, hpu⟩ := F_poly_unit (c := Config.default) (by decide) ht0.le ht1
  obtain ⟨hpu', hpl'⟩ := polyValue_default_le ht0.le ht1
  have htg := erfcTValue_ge h h'
  generalize polyValue Config.default (erfcTValue z) = step at *
  obtain ⟨hk, hkl, hku⟩ := erfcExponent_value (c := Config.default) h h' (by decide) hpl hpu
  generalize erfcExponentValue Config.default z step = k at *
  have hA : Config.default.A = 1265512230000000000 := rfl
  rw [hA] at hkl hku
  obtain ⟨he, -, -⟩ := expwadRef_mid (k := k) (by simp only [EXP_ZERO_FROM]; omega)
    (by simp only [EXP_OVERFLOW_FROM]; omega)
  have he2 : 200 ≤ ⌊expReal k⌋ := by
    rw [Int.le_floor]
    have h1 := expReal_mono (show -36075512229999999988 ≤ k by omega)
    have h2 := expReal_bound_low
    push_cast
    linarith
  have he1 : ⌊expReal k⌋ ≤ TWO_WAD - 2 := by
    have h1 := expReal_mono (show k ≤ 660000000000000000 by omega)
    have h2 := expReal_bound
    have : (⌊expReal k⌋ : ℝ) ≤ 1999999999999999998 := by linarith [Int.floor_le (expReal k)]
    have : ⌊expReal k⌋ ≤ 1999999999999999998 := by exact_mod_cast this
    simp only [TWO_WAD]
    omega
  generalize ⌊expReal k⌋ = e at *
  have he0 : 0 ≤ e := by omega
  have hr := tdiv_mul_WAD_nonneg ht0.le ht1 he0
  have hr2 : 2 ≤ Int.tdiv (erfcTValue z * e) WAD := by
    have h1 : 253164556962025316 * 200 ≤ erfcTValue z * e :=
      Int.mul_le_mul htg he2 (by norm_num) (by omega)
    exact le_trans (by decide) (tdiv_mono_nonneg (by norm_num) h1 (by decide))
  have hF : F_exp Config.default k = .ok e := he
  refine ⟨e, _, hF, rfl, ?_, hr2, le_trans hr.2 he1⟩
  unfold erfcR
  rw [ht, bind_ok, hp, bind_ok, hk, bind_ok, hF, bind_ok]
  exact F_mulwad_unit ht0.le ht1 (by omega) (by simp only [TWO_WAD] at he1; omega)

/-- With the default configuration `F_erfc` raises no error and answers a value in [0, 2*WAD], on every operand
(R119, R120). -/
theorem F_erfc_default_range (x : Int) :
    ∃ v : Int, F_erfc Config.default x = .ok v ∧ 0 ≤ v ∧ v ≤ TWO_WAD := by
  unfold F_erfc
  split
  · exact ⟨0, rfl, by decide, by decide⟩
  split
  · exact ⟨TWO_WAD, rfl, by decide, by decide⟩
  · rename_i h1 h2
    simp only [ERFC_BOUND, ge_iff_le, not_le] at h1 h2
    rw [F_abs_of_ne (by simp only [MIN]; omega), bind_ok]
    obtain ⟨e, r, -, -, hr, hr0, hr1⟩ := erfcR_default (z := (x.natAbs : Int)) (by omega)
      (by simp only [ERFC_BOUND]; omega)
    rw [hr, bind_ok]
    split
    · exact ⟨r, rfl, by omega, by omega⟩
    · simp only [TWO_WAD] at *
      exact ⟨2000000000000000000 - r, chk_of_range (by simp only [MIN]; omega) (by simp only [MAX]; omega),
        by omega, by omega⟩

/-! ### The CDF wrapper -/

/-- The value of `negatedZ` (R132). -/
def cdfArgumentValue (c : Config) (x mu sigma : Int) : Int := -Int.tdiv ((x - mu) * WAD2) (c.SQRT2 * sigma)

/-- Past validation the change of variable raises no error under an admissible configuration (R135). -/
theorem cdfArgument_value {c : Config} (hc : c.admissible = true) {x mu sigma : Int} (h : CdfValid x mu sigma) :
    cdfArgument c x mu sigma = .ok (cdfArgumentValue c x mu sigma) := by
  obtain ⟨-, -, -, -, -, -, -, -, -, -, hS⟩ := admissible_bounds hc
  obtain ⟨hx, hx', hm, hm', hs, hs'⟩ := h
  norm_num at hx hx' hm hm' hs'
  have hden : 0 < c.SQRT2 * sigma := Int.mul_pos (by omega) hs
  have hden' : c.SQRT2 * sigma ≤ 1500000000000000000 * 10000000000000000000 :=
    Int.mul_le_mul hS.2 hs' hs.le (by norm_num)
  have hq : (Int.tdiv ((x - mu) * WAD2) (c.SQRT2 * sigma)).natAbs ≤ ((x - mu) * WAD2).natAbs := by
    rw [Int.natAbs_tdiv]
    exact Nat.div_le_self _ _
  unfold cdfArgument cdfArgumentValue
  rw [chk_of_range (by simp only [MIN]; omega) (by simp only [MAX]; omega), bind_ok,
    chk_of_range (by simp only [MIN]; omega) (by simp only [MAX]; omega), bind_ok,
    F_muldiv_ok (by simp only [MIN, WAD2]; omega) (by simp only [MAX, WAD2]; omega) (by omega) (by omega), bind_ok]
  generalize Int.tdiv ((x - mu) * WAD2) (c.SQRT2 * sigma) = q at *
  simp only [WAD2] at hq
  exact chk_of_range (by simp only [MIN]; omega) (by simp only [MAX]; omega)

/-- `F_cdf` on valid operands is its last two steps (R130). -/
theorem F_cdf_valid {c : Config} (hc : c.admissible = true) {x mu sigma : Int} (h : CdfValid x mu sigma) :
    F_cdf c x mu sigma = (F_erfc c (cdfArgumentValue c x mu sigma)).bind fun e => F_muldiv WAD e TWO_WAD := by
  have ha := cdfArgument_value hc h
  obtain ⟨hx, hx', hm, hm', hs, hs'⟩ := h
  unfold F_cdf
  rw [if_neg (by simp only [X_BOUND]; omega), if_neg (by simp only [MU_BOUND]; omega),
    if_neg (by simp only [SIGMA_BOUND]; omega), ha, bind_ok]

/-- The rescale of step 4 for a value of `F_erfc` in [0, 2*WAD] (R133). -/
theorem rescale_value {e : Int} (h : 0 ≤ e) (h' : e ≤ TWO_WAD) : F_muldiv WAD e TWO_WAD = .ok (Int.tdiv e 2) := by
  simp only [TWO_WAD] at h'
  rw [F_muldiv_ok (by simp only [WAD, MIN]; omega) (by simp only [WAD, MAX]; omega) (by decide) (by decide)]
  have : TWO_WAD = WAD * 2 := by decide
  rw [this, Int.mul_tdiv_mul_of_pos _ _ (by decide)]

end Sys2Proof.Machine
end

