-- ==== Sys2Proof/Laws/Step.lean ====
section
/-! SUPPORT. Laws/Step.lean: what `exec` and `step` do, said once: every command is the common execution sequence on
the outcome of its function (spec R65), and every step is one transaction or nothing (R29). -/

namespace Sys2Proof.Machine

/-- The outcome of a command's function on the operands in `s` (R67). -/
def outcome (s : State) : Instr → FnOutcome
  | .mulwad _ ra rb => F_mulwad (s.operand ra) (s.operand rb)
  | .divwad _ ra rb => F_divwad (s.operand ra) (s.operand rb)
  | .muldiv _ ra rb rc => F_muldiv (s.operand ra) (s.operand rb) (s.operand rc)
  | .abs _ ra => F_abs (s.operand ra)
  | .expw _ ra => F_exp s.cfgNow (s.operand ra)
  | .poly _ ra => F_poly s.cfg (s.operand ra)
  | .erfc _ ra => F_erfc s.cfgNow (s.operand ra)
  | .cdf _ ra rb rc => F_cdf s.cfgNow (s.operand ra) (s.operand rb) (s.operand rc)

/-- Every command is the common execution sequence (R65). -/
theorem exec_eq (i : Instr) (s : State) : exec i s = s.command i.dest i.sources (outcome s i) := by
  cases i <;> rfl

/-! ### Which commands return (R30, R186) -/

theorem hornerStep_returns (t coeff s : Int) : hornerStep t coeff s ≠ .noReturn :=
  bind_ne_noReturn (F_muldiv_returns _ _ _) fun _ _ => chk_returns _

theorem F_poly_returns (c : Config) (t : Int) : F_poly c t ≠ .noReturn := by
  unfold F_poly
  iterate 8 refine bind_ne_noReturn (hornerStep_returns _ _ _) fun _ _ => ?_
  exact F_muldiv_returns _ _ _

theorem F_erfc_returns {c : Config} (hc : c.expwad.total = true) (x : Int) : F_erfc c x ≠ .noReturn := by
  unfold F_erfc
  split_ifs
  · simp
  · simp
  all_goals
    refine bind_ne_noReturn (F_abs_returns _) fun z _ => bind_ne_noReturn ?_ fun _ _ => ?_
    · refine bind_ne_noReturn ?_ fun _ _ => bind_ne_noReturn (F_poly_returns _ _) fun _ _ =>
        bind_ne_noReturn ?_ fun _ _ => bind_ne_noReturn (F_exp_returns hc _) fun _ _ => F_muldiv_returns _ _ _
      · exact bind_ne_noReturn (F_muldiv_returns _ _ _) fun _ _ => bind_ne_noReturn (chk_returns _) fun _ _ =>
          F_muldiv_returns _ _ _
      · exact bind_ne_noReturn (F_muldiv_returns _ _ _) fun _ _ => bind_ne_noReturn (chk_returns _) fun _ _ =>
          bind_ne_noReturn (chk_returns _) fun _ _ => chk_returns _
    · first | exact chk_returns _ | simp

theorem F_cdf_returns {c : Config} (hc : c.expwad.total = true) (x mu sigma : Int) : F_cdf c x mu sigma ≠ .noReturn := by
  unfold F_cdf
  split_ifs
  · simp
  · simp
  · simp
  · refine bind_ne_noReturn ?_ fun _ _ => bind_ne_noReturn (F_erfc_returns hc _) fun _ _ => F_muldiv_returns _ _ _
    exact bind_ne_noReturn (chk_returns _) fun _ _ => bind_ne_noReturn (chk_returns _) fun _ _ =>
      bind_ne_noReturn (F_muldiv_returns _ _ _) fun _ _ => chk_returns _

/-- The function of a command returns if the unit's exponential is total or the command does not call it. -/
theorem outcome_returns {s : State} {i : Instr} (h : s.Returns i) : outcome s i ≠ .noReturn := by
  have ht : usesExpwad i = true → s.cfgNow.expwad.total = true := by
    intro hu
    rcases h with h | h
    · simpa using h
    · rw [hu] at h
      cases h
  cases i with
  | mulwad _ _ _ => exact F_muldiv_returns _ _ _
  | divwad _ _ _ => exact F_muldiv_returns _ _ _
  | muldiv _ _ _ _ => exact F_muldiv_returns _ _ _
  | abs _ _ => exact F_abs_returns _
  | expw _ _ => exact F_exp_returns (ht rfl) _
  | poly _ _ => exact F_poly_returns _ _
  | erfc _ _ => exact F_erfc_returns (ht rfl) _
  | cdf _ _ _ _ => exact F_cdf_returns (ht rfl) _ _ _

/-- What does not return is stuck in its call of the exponential, and nothing else stops a command (U5). -/
theorem exec_cases (i : Instr) (s : State) :
    (∃ t, exec i s = .next t) ∨ (exec i s = .fault .expwadDoesNotReturn ∧ outcome s i = .noReturn) := by
  rw [exec_eq]
  by_cases h : outcome s i = .noReturn
  · exact .inr ⟨by rw [h]; rfl, h⟩
  · exact .inl (command_returns s _ _ h)

section Step
variable {s : State} {rest : List Transaction}

theorem step_idle (h : s.port = []) : step s = .next s := by
  simp [step, performNext, h]

theorem step_hostWrite {i : Reg} {b : Word} (h : s.port = .hostWrite i b :: rest) :
    step s = .next (hostWrite i b { s with port := rest }) := by
  simp [step, performNext, perform, h]

theorem step_hostRead {i : Reg} (h : s.port = .hostRead i :: rest) :
    step s = .next (hostRead i { s with port := rest }) := by
  simp [step, performNext, perform, h]

theorem step_hostStatus (h : s.port = .hostStatus :: rest) : step s = .next (hostStatus { s with port := rest }) := by
  simp [step, performNext, perform, h]

theorem step_reset (h : s.port = .reset :: rest) : step s = .next (hostReset { s with port := rest }) := by
  simp [step, performNext, perform, h]

theorem step_issue {c : CommandWord} (h : s.port = .issue c :: rest) :
    step s = issueCommand c { s with port := rest } := by
  simp [step, performNext, perform, h]

end Step

theorem issueCommand_of_command {c : CommandWord} {i : Instr} (h : decode c = .command i) (s : State) :
    issueCommand c s = s.command i.dest i.sources (outcome s i) := by
  simp only [issueCommand, h]
  exact exec_eq i s

theorem issueCommand_of_illegal {c : CommandWord} {r : IllegalReason} (h : decode c = .illegal r) (s : State) :
    issueCommand c s = .next (s.complete codeIllegalCommand) := by
  simp [issueCommand, h]

/-- The six cases of a step (R29, R41): idle, one of the four transactions that are no `Issue`, or an `Issue`, whose
word is a command or is none. -/
theorem step_cases {s t : State} (h : step s = .next t) :
    (s.port = [] ∧ t = s)
    ∨ (∃ i b rest, s.port = .hostWrite i b :: rest ∧ t = hostWrite i b { s with port := rest })
    ∨ (∃ i rest, s.port = .hostRead i :: rest ∧ t = hostRead i { s with port := rest })
    ∨ (∃ rest, s.port = .hostStatus :: rest ∧ t = hostStatus { s with port := rest })
    ∨ (∃ rest, s.port = .reset :: rest ∧ t = hostReset { s with port := rest })
    ∨ (∃ c i rest, s.port = .issue c :: rest ∧ decode c = .command i
        ∧ ({ s with port := rest } : State).command i.dest i.sources (outcome { s with port := rest } i) = .next t)
    ∨ (∃ c r rest, s.port = .issue c :: rest ∧ decode c = .illegal r
        ∧ t = ({ s with port := rest } : State).complete codeIllegalCommand) := by
  match hp : s.port with
  | [] =>
    rw [step_idle hp] at h
    cases h
    exact .inl ⟨rfl, rfl⟩
  | .hostWrite i b :: rest =>
    rw [step_hostWrite hp] at h
    cases h
    exact .inr (.inl ⟨i, b, rest, rfl, rfl⟩)
  | .hostRead i :: rest =>
    rw [step_hostRead hp] at h
    cases h
    exact .inr (.inr (.inl ⟨i, rest, rfl, rfl⟩))
  | .hostStatus :: rest =>
    rw [step_hostStatus hp] at h
    cases h
    exact .inr (.inr (.inr (.inl ⟨rest, rfl, rfl⟩)))
  | .reset :: rest =>
    rw [step_reset hp] at h
    cases h
    exact .inr (.inr (.inr (.inr (.inl ⟨rest, rfl, rfl⟩))))
  | .issue c :: rest =>
    rw [step_issue hp] at h
    match hd : decode c with
    | .command i =>
      rw [issueCommand_of_command hd] at h
      exact .inr (.inr (.inr (.inr (.inr (.inl ⟨c, i, rest, rfl, hd, h⟩)))))
    | .illegal r =>
      rw [issueCommand_of_illegal hd] at h
      cases h
      exact .inr (.inr (.inr (.inr (.inr (.inr ⟨c, r, rest, rfl, hd, rfl⟩)))))

/-! ### The other transactions, field by field -/

section Transactions
variable (s : State) (i : Reg) (b : Word)

@[simp] theorem hostWrite_status : (hostWrite i b s).status = s.status := rfl
@[simp] theorem hostWrite_reply : (hostWrite i b s).reply = .none := rfl
@[simp] theorem hostWrite_faulted : (hostWrite i b s).faulted = s.faulted := rfl
@[simp] theorem hostWrite_readUnheld : (hostWrite i b s).readUnheld = s.readUnheld := rfl
@[simp] theorem hostWrite_port : (hostWrite i b s).port = s.port := rfl
@[simp] theorem hostWrite_cfg : (hostWrite i b s).cfg = s.cfg := rfl
@[simp] theorem hostWrite_commandCount : (hostWrite i b s).commandCount = s.commandCount := rfl
@[simp] theorem regWord_hostWrite_self : (hostWrite i b s).regWord i = b := regWord_writeReg_self s i b
@[simp] theorem holds_hostWrite_self : (hostWrite i b s).holds i = true := holds_writeReg_self s i b

@[simp] theorem hostRead_status : (hostRead i s).status = s.status := rfl
@[simp] theorem hostRead_reply : (hostRead i s).reply = .word (s.regWord i) := rfl
@[simp] theorem hostRead_w : (hostRead i s).w = s.w := rfl
@[simp] theorem hostRead_held : (hostRead i s).held = s.held := rfl
@[simp] theorem hostRead_faulted : (hostRead i s).faulted = s.faulted := rfl
@[simp] theorem hostRead_port : (hostRead i s).port = s.port := rfl
@[simp] theorem hostRead_cfg : (hostRead i s).cfg = s.cfg := rfl
@[simp] theorem hostRead_commandCount : (hostRead i s).commandCount = s.commandCount := rfl

@[simp] theorem hostStatus_status : (hostStatus s).status = s.status := rfl
@[simp] theorem hostStatus_reply : (hostStatus s).reply = .code s.status := rfl
@[simp] theorem hostStatus_faulted : (hostStatus s).faulted = s.faulted := rfl
@[simp] theorem hostStatus_readUnheld : (hostStatus s).readUnheld = s.readUnheld := rfl
@[simp] theorem hostStatus_w : (hostStatus s).w = s.w := rfl
@[simp] theorem hostStatus_held : (hostStatus s).held = s.held := rfl
@[simp] theorem hostStatus_port : (hostStatus s).port = s.port := rfl
@[simp] theorem hostStatus_cfg : (hostStatus s).cfg = s.cfg := rfl
@[simp] theorem hostStatus_commandCount : (hostStatus s).commandCount = s.commandCount := rfl

@[simp] theorem hostReset_status : (hostReset s).status = 0x00#8 := rfl
@[simp] theorem hostReset_reply : (hostReset s).reply = .none := rfl
@[simp] theorem hostReset_faulted : (hostReset s).faulted = false := rfl
@[simp] theorem hostReset_readUnheld : (hostReset s).readUnheld = false := rfl
@[simp] theorem hostReset_port : (hostReset s).port = s.port := rfl
@[simp] theorem hostReset_cfg : (hostReset s).cfg = s.cfg := rfl
@[simp] theorem hostReset_commandCount : (hostReset s).commandCount = s.commandCount := rfl

end Transactions

end Sys2Proof.Machine
end

