-- ==== Sys2Proof/Laws/Complete.lean ====
section
/-! SUPPORT. Laws/Complete.lean: how a command completes, in the words of the statements (`State.CompletedOk`,
`State.CompletedErr`): the spec lemmas of the common execution sequence (spec R65, R153, R154), the range of what each
function answers (R11), and the byte images (R47). -/

namespace Sys2Proof.Machine

/-! ### Representable values -/

theorem fits_iff (v : Int) : Fits v ↔ MIN ≤ v ∧ v ≤ MAX := by rw [MIN_eq, MAX_eq]

theorem WAD_eq : WAD = 10 ^ 18 := by norm_num [WAD]
theorem WAD2_eq : WAD2 = 10 ^ 36 := by norm_num [WAD2]
theorem TWO_WAD_eq : TWO_WAD = 2 * 10 ^ 18 := by norm_num [TWO_WAD]

theorem chk_eq (v : Int) : chk v = if Fits v then .ok v else .err .arithmeticOverflow := by
  unfold chk
  simp only [fits_iff]

theorem F_mulwad_eq (x y : Int) :
    F_mulwad x y = if Fits (x * y) then .ok (Int.tdiv (x * y) (10 ^ 18)) else .err .arithmeticOverflow := by
  rw [F_mulwad_spec, WAD_eq]
  simp only [fits_iff]

theorem hornerStep_eq (t coeff s : Int) :
    hornerStep t coeff s =
      if Fits (t * s) ∧ Fits (coeff + Int.tdiv (t * s) (10 ^ 18)) then .ok (coeff + Int.tdiv (t * s) (10 ^ 18))
      else .err .arithmeticOverflow := by
  unfold hornerStep
  rw [F_mulwad_eq]
  by_cases h : Fits (t * s)
  · rw [if_pos h, bind_ok, chk_eq]
    split <;> rename_i h'
    · rw [if_pos ⟨h, h'⟩]
    · rw [if_neg (fun g => h' g.2)]
  · rw [if_neg h, bind_err]
    rw [if_neg (fun g => h g.1)]

/-! ### What the functions answer is representable -/

theorem F_muldiv_fits {a b d v : Int} (h : F_muldiv a b d = .ok v) : Fits v := by
  rw [F_muldiv_spec] at h
  split_ifs at h with h1 h2 h3
  cases h
  rw [fits_iff]
  have e : (Int.tdiv (a * b) d).natAbs = (a * b).natAbs / d.natAbs := Int.natAbs_tdiv (a * b) d
  by_cases hd : d = 1
  · subst hd
    simpa using h1
  by_cases hd' : d = -1
  · subst hd'
    simp [MIN, MAX] at *
    omega
  have h2 : (a * b).natAbs / d.natAbs ≤ (a * b).natAbs / 2 := Nat.div_le_div_left (by omega) (by decide)
  simp only [MIN, MAX] at *
  omega

theorem F_mulwad_fits {x y v : Int} (h : F_mulwad x y = .ok v) : Fits v := F_muldiv_fits h

theorem F_poly_fits {c : Config} {t v : Int} (h : F_poly c t = .ok v) : Fits v := by
  unfold F_poly at h
  iterate 8 obtain ⟨_, _, h⟩ := bind_eq_ok h
  exact F_mulwad_fits h

theorem erfcR_fits {c : Config} {z v : Int} (h : erfcR c z = .ok v) : Fits v := by
  unfold erfcR at h
  iterate 4 obtain ⟨_, _, h⟩ := bind_eq_ok h
  exact F_mulwad_fits h

theorem F_erfc_fits {c : Config} {x v : Int} (h : F_erfc c x = .ok v) : Fits v := by
  unfold F_erfc at h
  split at h
  · cases h
    decide
  split at h
  · cases h
    decide
  obtain ⟨z, _, h⟩ := bind_eq_ok h
  obtain ⟨r, hr, h⟩ := bind_eq_ok h
  split at h
  · cases h
    exact erfcR_fits hr
  · rw [chk_eq] at h
    split at h
    · cases h
      assumption
    · cases h

theorem F_cdf_fits {c : Config} {x mu sigma v : Int} (h : F_cdf c x mu sigma = .ok v) : Fits v := by
  unfold F_cdf at h
  split at h
  · cases h
  split at h
  · cases h
  split at h
  · cases h
  obtain ⟨_, _, h⟩ := bind_eq_ok h
  obtain ⟨_, _, h⟩ := bind_eq_ok h
  exact F_muldiv_fits h

/-! ### Completion -/

/-- A command whose function gave the value `v` completes with `0x00` and `v` in its destination (R65, R154). -/
theorem command_completedOk {s : State} {rd : Reg} {srcs : List Reg} {o : FnOutcome} {v : Int} (h : o = .ok v)
    (hv : Fits v) : ∃ t, s.command rd srcs o = .next t ∧ s.CompletedOk t rd v := by
  obtain ⟨t, ht⟩ := command_returns s rd srcs (o := o) (by simp [h])
  obtain ⟨h1, h2, h3, -, h5, h6, h7, h8, h9, -⟩ := command_spec ht
  subst h
  obtain ⟨hw, hh⟩ := h8 v rfl
  rw [fits_iff] at hv
  have h1' : t.status = codeOk := (Option.some.inj h1).symm
  refine ⟨t, ht, h1', by rw [h2, h1']; rfl, ?_, hh, h9, by rw [h3, h1']; simp, h5, h6, h7⟩
  simp only [State.regWord] at hw
  rw [hw]
  exact sval_word hv.1 hv.2

/-- A command whose function gave the error `e` completes with `code e` and writes no register (R65, R154). -/
theorem command_completedErr {s : State} {rd : Reg} {srcs : List Reg} {o : FnOutcome} {e : FnError} (h : o = .err e) :
    ∃ t, s.command rd srcs o = .next t ∧ s.CompletedErr t (code e) := by
  obtain ⟨t, ht⟩ := command_returns s rd srcs (o := o) (by simp [h])
  obtain ⟨h1, h2, h3, -, h5, h6, h7, -, -, h9⟩ := command_spec ht
  subst h
  have h1' : t.status = code e := (Option.some.inj h1).symm
  exact ⟨t, ht, h1', by rw [h2, h1'], (h9 e rfl).1, (h9 e rfl).2, by rw [h3, h1']; simp [code_ne_codeOk], h5, h6, h7⟩

/-- An `Issue` that returns completes with a code it returns and leaves in `STATUS`, whatever the word (R44, R153). -/
theorem issueCommand_next {c : CommandWord} {s t : State} (h : issueCommand c s = .next t) :
    t.reply = .code t.status ∧ t.port = s.port ∧ t.cfg = s.cfg := by
  match hd : decode c with
  | .command i =>
    rw [issueCommand_of_command hd] at h
    obtain ⟨_, h2, _, _, h3, h4, _⟩ := command_spec h
    exact ⟨h2, h3, h4⟩
  | .illegal r =>
    rw [issueCommand_of_illegal hd] at h
    cases h
    exact ⟨rfl, rfl, rfl⟩

/-! ### Byte images -/

theorem length_bytesBE (n v : Nat) : (bytesBE n v).length = n := by simp [bytesBE]

theorem bytesBE_succ (n v : Nat) : bytesBE (n + 1) v = BitVec.ofNat 8 (v >>> (8 * n)) :: bytesBE n v := by
  simp [bytesBE, List.range_succ]

/-- Byte `i` of `n`, the most significant being byte 0 (R47). -/
theorem getElem?_bytesBE (n v i : Nat) (h : i < n) :
    (bytesBE n v)[i]? = some (BitVec.ofNat 8 (v >>> (8 * (n - 1 - i)))) := by
  simp only [bytesBE, List.getElem?_map]
  rw [List.getElem?_reverse (by simpa using h), List.length_range, List.getElem?_range (by omega)]
  rfl

end Sys2Proof.Machine
end

