-- ==== Sys2Proof/Laws/PerInstr.lean ====
section
/-! SUPPORT. Laws/PerInstr.lean: facts about every command as syntax, one lemma per constructor. The family
`EncodeWellFormed` says that the word of a command has well-formed fields (spec R62, R66). -/

namespace Sys2Proof.Laws.EncodeWellFormed

/-- The fields of a command's word pass the four checks of R66. -/
def Statement (i : Instr) : Prop := (R4.ofWord (encode i)).wellFormed = true

theorem mulwad (rd ra rb : Reg) : Statement (.mulwad rd ra rb) := by
  simp [Statement, encode, r4Word_eq, ofWord_toWord, R4.wellFormed, R4.opcodeOk, R4.zeroOk, R4.rbOk, R4.rcOk,
    R4.sourceCount]

theorem divwad (rd ra rb : Reg) : Statement (.divwad rd ra rb) := by
  simp [Statement, encode, r4Word_eq, ofWord_toWord, R4.wellFormed, R4.opcodeOk, R4.zeroOk, R4.rbOk, R4.rcOk,
    R4.sourceCount]

theorem muldiv (rd ra rb rc : Reg) : Statement (.muldiv rd ra rb rc) := by
  simp [Statement, encode, r4Word_eq, ofWord_toWord, R4.wellFormed, R4.opcodeOk, R4.zeroOk, R4.rbOk, R4.rcOk,
    R4.sourceCount]

theorem abs (rd ra : Reg) : Statement (.abs rd ra) := by
  simp [Statement, encode, r4Word_eq, ofWord_toWord, R4.wellFormed, R4.opcodeOk, R4.zeroOk, R4.rbOk, R4.rcOk,
    R4.sourceCount]

theorem expw (rd ra : Reg) : Statement (.expw rd ra) := by
  simp [Statement, encode, r4Word_eq, ofWord_toWord, R4.wellFormed, R4.opcodeOk, R4.zeroOk, R4.rbOk, R4.rcOk,
    R4.sourceCount]

theorem poly (rd ra : Reg) : Statement (.poly rd ra) := by
  simp [Statement, encode, r4Word_eq, ofWord_toWord, R4.wellFormed, R4.opcodeOk, R4.zeroOk, R4.rbOk, R4.rcOk,
    R4.sourceCount]

theorem erfc (rd ra : Reg) : Statement (.erfc rd ra) := by
  simp [Statement, encode, r4Word_eq, ofWord_toWord, R4.wellFormed, R4.opcodeOk, R4.zeroOk, R4.rbOk, R4.rcOk,
    R4.sourceCount]

theorem cdf (rd ra rb rc : Reg) : Statement (.cdf rd ra rb rc) := by
  simp [Statement, encode, r4Word_eq, ofWord_toWord, R4.wellFormed, R4.opcodeOk, R4.zeroOk, R4.rbOk, R4.rcOk,
    R4.sourceCount]

end Sys2Proof.Laws.EncodeWellFormed
end

