-- ==== Sys2Proof/Tests/Slice0.lean ====
section
/-! SUPPORT. Tests/Slice0.lean: the model's own tests, and a witness for the hypotheses of each statement. Expected
values come from the spec: the vectors V-... of 95_test_vectors.md, or the corner cases of the rule named. -/

namespace Sys2Proof.Tests

open Sys2Proof Sys2Proof.Machine

/-! ### Helpers -/

/-- A state after reset in which these registers hold these signed values. -/
def regs (l : List (Reg × Int)) : State := l.foldl (fun s p => s.writeReg p.1 (word p.2)) State.reset

/-- A state after reset with these transactions at the port. -/
def portOf (l : List Transaction) : State := { State.reset with port := l }

/-- The next state, if there is one. -/
def nextOf (o : Host.Outcome State Fault Refusal) : Option State :=
  match o with
  | .next t => some t
  | .fault _ => none
  | .refused _ => none

/-- The status and the signed value of the destination after a command. -/
def result (i : Instr) (s : State) : Option (Code × Int) :=
  (nextOf (exec i s)).map fun t => (t.status, t.w[i.dest].toInt)

/-- The state after `k` steps. -/
def runs (k : Nat) (s : State) : Option State :=
  match k with
  | 0 => some s
  | k + 1 => (nextOf (step s)).bind (runs k)

/-- The reply and the status after `k` steps. -/
def replyAfter (k : Nat) (s : State) : Option (Reply × Code) := (runs k s).map fun t => (t.reply, t.status)

/-! ### WellFormed: one ill-formed word for each check, which the check and `wellFormed` refuse (R66) -/

/-- The fields of `CDF w0, w1, w2, w3`. -/
def goodFields : R4 := ⟨0x08#8, 0#3, 1#3, 2#3, 3#3, 0#12⟩

theorem test_wellFormed_accepts : goodFields.wellFormed = true := by decide

theorem test_opcodeOk_refuses_zero :
    ({ goodFields with opcode := 0x00#8 } : R4).opcodeOk = false
    ∧ ({ goodFields with opcode := 0x00#8 } : R4).wellFormed = false := by decide

theorem test_opcodeOk_refuses_nine :
    ({ goodFields with opcode := 0x09#8 } : R4).opcodeOk = false
    ∧ ({ goodFields with opcode := 0x09#8 } : R4).wellFormed = false := by decide

theorem test_zeroOk_refuses :
    ({ goodFields with zero := 0x800#12 } : R4).zeroOk = false
    ∧ ({ goodFields with zero := 0x800#12 } : R4).wellFormed = false := by decide

theorem test_rbOk_refuses :
    (⟨0x07#8, 0#3, 1#3, 1#3, 0#3, 0#12⟩ : R4).rbOk = false
    ∧ (⟨0x07#8, 0#3, 1#3, 1#3, 0#3, 0#12⟩ : R4).wellFormed = false := by decide

theorem test_rcOk_refuses :
    (⟨0x02#8, 0#3, 1#3, 2#3, 1#3, 0#12⟩ : R4).rcOk = false
    ∧ (⟨0x02#8, 0#3, 1#3, 2#3, 1#3, 0#12⟩ : R4).wellFormed = false := by decide

/-! ### Decode: every constructor by a word of the spec (V-DE-1 to V-DE-13), bit by bit where written in binary -/

theorem test_decode_cdf : decode 0b00001000000001010011000000000000#32 = .command (.cdf 0 1 2 3) := by decide
theorem test_decode_mulwad : decode 0b00000001000001010000000000000000#32 = .command (.mulwad 0 1 2) := by decide
theorem test_decode_divwad : decode 0b00000010000001010000000000000000#32 = .command (.divwad 0 1 2) := by decide
theorem test_decode_muldiv : decode 0b00000011000001010011000000000000#32 = .command (.muldiv 0 1 2 3) := by decide
theorem test_decode_abs : decode 0b00000100000001000000000000000000#32 = .command (.abs 0 1) := by decide
theorem test_decode_expw : decode 0b00000101000001000000000000000000#32 = .command (.expw 0 1) := by decide
theorem test_decode_poly : decode 0b00000110000001000000000000000000#32 = .command (.poly 0 1) := by decide
theorem test_decode_erfc : decode 0b00000111000001000000000000000000#32 = .command (.erfc 0 1) := by decide

theorem test_decode_all_ones_fields :
    decode 0x01FF8000#32 = .command (.mulwad 7 7 7) ∧ decode 0x03FFF000#32 = .command (.muldiv 7 7 7 7)
    ∧ decode 0x08FFF000#32 = .command (.cdf 7 7 7 7) ∧ decode 0x04FC0000#32 = .command (.abs 7 7)
    ∧ decode 0x01000000#32 = .command (.mulwad 0 0 0) := by decide

/-- V-DE-14 to V-DE-25, with the reasons the spec gives. -/
theorem test_decode_illegal :
    decode 0x01FFF000#32 = .illegal .unusedFieldSet ∧ decode 0x04FC8000#32 = .illegal .unusedFieldSet
    ∧ decode 0x04041000#32 = .illegal .unusedFieldSet ∧ decode 0x07048000#32 = .illegal .unusedFieldSet
    ∧ decode 0x00000000#32 = .illegal .noSuchOpcode ∧ decode 0xFFFFFFFF#32 = .illegal .noSuchOpcode
    ∧ decode 0x09000000#32 = .illegal .noSuchOpcode ∧ decode 0x08053001#32 = .illegal .zeroFieldSet
    ∧ decode 0x08053800#32 = .illegal .zeroFieldSet ∧ decode 0x00053000#32 = .illegal .noSuchOpcode
    ∧ decode 0x80053000#32 = .illegal .noSuchOpcode ∧ decode 0x02051000#32 = .illegal .unusedFieldSet := by decide

theorem test_decodeBytes_big_endian :
    decodeBytes [0x08#8, 0x05#8, 0x30#8, 0x00#8, 0xAA#8] = (.command (.cdf 0 1 2 3), [0xAA#8])
    ∧ decodeBytes [0x08#8, 0x05#8, 0x30#8] = (.illegal .truncated, [0x08#8, 0x05#8, 0x30#8]) := by decide

theorem test_decodeTableWord :
    decodeTableWord 32 0x03A9C000 = some (.muldiv 5 2 3 4) ∧ decodeTableWord 32 0 = none := by decide

theorem test_encode_r68 : encode (.cdf 0 1 2 3) = 0x08053000#32 := by decide

theorem test_asm :
    asm (.cdf 0 1 2 3) = "CDF w0, w1, w2, w3" ∧ asm (.abs 7 6) = "ABS w7, w6" := by decide

/-! ### The commands -/

/-- V-MW-2, V-MW-16 and V-MW-21: truncation toward zero, the pair (-1, MIN), a product of exactly MIN. -/
theorem test_mulwad_truncates :
    result (.mulwad 0 1 2) (regs [(1, -7), (2, 500000000000000000)]) = some (0x00#8, -3) := by decide +kernel
theorem test_mulwad_boundary :
    result (.mulwad 0 1 2) (regs [(0, 9), (1, -1), (2, MIN)]) = some (0x04#8, 9)
    ∧ result (.mulwad 0 1 2) (regs [(1, 2 ^ 127), (2, -2 ^ 128)])
      = some (0x00#8, -57896044618658097711785492504343953926634992332820282019728) := by decide +kernel

/-- V-DW-8, V-DW-10 and V-DW-12 to V-DW-16. -/
theorem test_divwad_order_of_errors :
    result (.divwad 0 1 2) (regs [(0, 9), (1, MAX), (2, 0)]) = some (0x04#8, 9)
    ∧ result (.divwad 0 1 2) (regs [(0, 9), (1, 5), (2, 0)]) = some (0x06#8, 9) := by decide +kernel
theorem test_divwad_value :
    result (.divwad 0 1 2) (regs [(1, 1000000000000000000), (2, 1363426786861826786)])
      = some (0x00#8, 733446056389782958)
    ∧ result (.divwad 0 1 2) (regs [(1, -57896044618658097711785492504343953926634992332820282019729), (2, 1)])
      = some (0x04#8, 0) := by decide +kernel

/-- V-MD-4, V-MD-10, V-MD-12 and V-MD-18. -/
theorem test_muldiv_value :
    result (.muldiv 0 1 2 3) (regs [(1, -7), (2, -3), (3, -2)]) = some (0x00#8, -10)
    ∧ result (.muldiv 0 1 2 3) (regs [(1, MIN + 1), (2, 1), (3, -1)]) = some (0x00#8, MAX) := by decide +kernel
theorem test_muldiv_errors :
    result (.muldiv 0 1 2 3) (regs [(1, MAX), (2, MAX), (3, 0)]) = some (0x04#8, 0)
    ∧ result (.muldiv 0 1 2 3) (regs [(1, 2 ^ 127), (2, -2 ^ 128), (3, -1)]) = some (0x04#8, 0)
    ∧ result (.muldiv 0 1 2 3) (regs []) = some (0x06#8, 0) := by decide +kernel

/-- V-AB-7, V-AB-8 and V-ST-7. -/
theorem test_abs_min :
    result (.abs 0 1) (regs [(0, 7), (1, MIN)]) = some (0x05#8, 7)
    ∧ result (.abs 0 1) (regs [(1, MIN + 1)]) = some (0x00#8, MAX) := by decide +kernel
theorem test_abs_source_is_destination : result (.abs 1 1) (regs [(1, -3)]) = some (0x00#8, 3) := by decide +kernel

/-- V-EX-4, V-EX-12 and V-EX-13, V-EX-21 and V-EX-22. -/
theorem test_expw_values :
    result (.expw 0 1) (regs [(1, 1000000000000000000)]) = some (0x00#8, 2718281828459045235)
    ∧ result (.expw 0 1) (regs [(1, -41446531673892822312)]) = some (0x00#8, 1)
    ∧ result (.expw 0 1) (regs [(1, -41446531673892822313)]) = some (0x00#8, 0) := by decide +kernel
theorem test_expw_overflow :
    result (.expw 0 1) (regs [(1, 135305999368893231590)]) = some (0x04#8, 0)
    ∧ result (.expw 0 1) (regs [(1, 135305999368893231589)])
      = some (0x00#8, 57896044618658097707712807547600434460894277218426047864535176624857265142719) := by
  decide +kernel

/-- V-PO-9, V-PO-7, V-PO-13. -/
theorem test_poly_values :
    result (.poly 0 1) (regs [(1, 733446056389782958)]) = some (0x00#8, 913051235792489313)
    ∧ result (.poly 0 1) (regs [(1, -500000000000000000)]) = some (0x00#8, -471856363886718750) := by decide +kernel
theorem test_poly_overflow :
    result (.poly 0 1) (regs [(0, 7), (1, 100000000000000000000000)]) = some (0x04#8, 7) := by decide +kernel

/-- V-ER-10, V-ER-3, V-ER-20, V-ER-22 and V-ER-27. -/
theorem test_erfc_values :
    result (.erfc 0 1) (regs [(1, 1000000000000000000)]) = some (0x00#8, 157299212239993275)
    ∧ result (.erfc 0 1) (regs [(1, -1)]) = some (0x00#8, 999999969999999550) := by decide +kernel
theorem test_erfc_saturation :
    result (.erfc 0 1) (regs [(1, 5899999999999999999)]) = some (0x00#8, 71)
    ∧ result (.erfc 0 1) (regs [(1, 5900000000000000000)]) = some (0x00#8, 0)
    ∧ result (.erfc 0 1) (regs [(1, MIN)]) = some (0x00#8, 2000000000000000000) := by decide +kernel

/-- V-CD-3, V-CD-10, V-CD-24. -/
theorem test_cdf_values :
    result (.cdf 0 1 2 3) (regs [(1, 2), (2, 0), (3, 1000000000000000000)]) = some (0x00#8, 499999984999999775)
    ∧ result (.cdf 1 1 2 3) (regs [(1, 3000000000000000000), (2, 1000000000000000000), (3, 2000000000000000000)])
      = some (0x00#8, 841344738604325374)
    ∧ result (.cdf 0 1 2 3) (regs [(1, 100000000000000000000000), (2, -100000000000000000000), (3, 1)])
      = some (0x00#8, 1000000000000000000) := by decide +kernel
/-- V-CD-44, V-CD-45, V-CD-39, V-CD-42: priority x, mu, sigma, and the bounds by one unit. -/
theorem test_cdf_errors :
    result (.cdf 0 1 2 3) (regs [(1, 100000000000000000000001), (2, 100000000000000000001), (3, 0)]) = some (0x01#8, 0)
    ∧ result (.cdf 0 1 2 3) (regs [(1, 0), (2, 100000000000000000001), (3, 0)]) = some (0x02#8, 0)
    ∧ result (.cdf 0 1 2 3) (regs [(1, 0), (2, 0), (3, 10000000000000000001)]) = some (0x03#8, 0)
    ∧ result (.cdf 0 1 2 3) (regs [(1, 0), (2, 0), (3, MIN)]) = some (0x03#8, 0) := by decide +kernel

/-- A configuration with the alternative exponential (R107) and one that breaks R111 with `SQRT2 = 0` (R137). -/
theorem test_other_configurations :
    result (.expw 0 1) { regs [(1, 1000000000000000000)] with cfg := { Config.default with expwad := .alt } }
      = some (0x00#8, 2718281828459045235)
    ∧ result (.cdf 0 1 2 3) { regs [(1, 0), (2, 0), (3, 1)] with cfg := { Config.default with SQRT2 := 0 } }
      = some (0x06#8, 0)
    ∧ ({ Config.default with SQRT2 := 0 } : Config).admissible = false := by decide +kernel

/-- Exponentials outside R100 (U5): no such configuration is admissible; POLY, and ERFC where it saturates, complete
all the same; and the exponential is the next use's after a command. -/
theorem test_unlawful_exponential :
    ({ Config.default with expwad := .unruly 3 0 } : Config).admissible = false
    ∧ result (.poly 0 1) { regs [(1, 1000000000000000000)] with cfg := { Config.default with expwad := .nontotal 3 0 } }
      = some (0x00#8, 1265512260000000000)
    ∧ result (.erfc 0 1) { regs [(1, 5900000000000000000)] with cfg := { Config.default with expwad := .nontotal 3 0 } }
      = some (0x00#8, 0)
    ∧ (runs 3 { portOf [.issue 0x04040000#32, .hostRead 0, .reset] with
        cfg := { Config.default with expwad := .unruly 3 0 } }).map (fun t => t.cfgNow.expwad)
      = some (.unruly 3 1) := by decide +kernel

/-! ### The port, reset and the ghost marks (V-ST-1 to V-ST-10) -/

theorem test_status_after_reset : replyAfter 2 (portOf [.reset, .hostStatus]) = some (.code 0x00#8, 0x00#8) := by decide

theorem test_illegal_word_after_reset :
    replyAfter 2 (portOf [.issue 0x00000000#32, .hostStatus]) = some (.code 0x07#8, 0x07#8)
    ∧ (runs 1 (portOf [.issue 0x00000000#32])).map State.readUnheld = some false := by decide

theorem test_write_then_read :
    replyAfter 3 (portOf [.hostWrite 1 5#256, .hostRead 1, .hostRead 1]) = some (.word 5#256, 0x00#8)
    ∧ (runs 3 (portOf [.hostWrite 1 5#256, .hostRead 1, .hostRead 1])).map State.readUnheld = some false := by decide

/-- V-ST-2: a read of a register that holds no value marks the run. -/
theorem test_unheld_read_is_marked : (runs 1 (portOf [.hostRead 0])).map State.readUnheld = some true := by decide

theorem test_unheld_source_is_marked :
    (runs 1 (portOf [.issue 0x04040000#32])).map State.readUnheld = some true := by decide +kernel

/-- V-ST-5: the error code, the destination kept, and the ghost bit. -/
theorem test_error_keeps_destination :
    (runs 3 (portOf [.hostWrite 1 (word MIN), .hostWrite 0 7#256, .issue 0x04040000#32])).map
      (fun t => (t.status, t.w[(0 : Reg)], t.faulted)) = some (0x05#8, 7#256, true) := by decide +kernel

/-- V-ST-9: after a `Reset` no register holds a value, `STATUS` is 0 and the ghost bits are clear. -/
theorem test_reset_clears :
    (runs 3 (portOf [.hostWrite 1 5#256, .issue 0#32, .reset])).map (fun t => (t.status, t.held[(1 : Reg)], t.faulted))
      = some (0x00#8, false, false) := by decide

/-- The word placed as the next fetch is the next transaction, the others stay behind it. -/
theorem test_withFetchWord :
    (State.reset.withFetchWord 32 0x08053000).port = [.issue 0x08053000#32]
    ∧ (nextOf (step (State.reset.withFetchWord 32 0x04040000))).map State.status = some 0x00#8 := by decide +kernel

theorem test_word_bytes :
    (bytesOfWord (word (-5))).take 2 = [0xFF#8, 0xFF#8] ∧ (bytesOfWord (word (-5))).drop 31 = [0xFB#8] := by decide

/-! ### Witnesses: for each statement with hypotheses, a state and operands that meet them, at the boundaries -/

theorem witness_EncodeOfDecode : decode 0x08FFF000#32 = .command (.cdf 7 7 7 7) := by decide

theorem witness_DecodeFollowsOpcodeRows :
    0x08FFF000#32 &&& opcodeTable[(7 : Fin 8)].mask = opcodeTable[(7 : Fin 8)].matchBits
    ∧ ∀ i : Fin 8, 0xFFFFFFFF#32 &&& opcodeTable[i].mask ≠ opcodeTable[i].matchBits := by decide

/-- One word for each clause of R66, at its boundary, and a legal word at each end of the opcodes. -/
theorem witness_IllegalWords :
    ([0x00FFFFFF#32, 0x09000000#32, 0x08000001#32, 0x04001000#32, 0x07020000#32, 0x01001000#32,
      0x02007000#32].all fun c => (decode c).instr? == none) = true
    ∧ (decode 0x01000000#32).instr? = some (.mulwad 0 0 0) ∧ (decode 0x08FFF000#32).instr? = some (.cdf 7 7 7 7)
    ∧ (portOf [.issue 0x09000000#32]).port = .issue 0x09000000#32 :: [] := by decide

theorem witness_DecodeAcceptsWellFormedFields :
    (R4.ofWord 0x04FC0000#32).wellFormed = true ∧ (R4.ofWord 0x04FC8000#32).wellFormed = false := by decide

theorem witness_StepRunsDecodedCommand :
    (portOf [.issue 0x07040000#32, .hostRead 0]).port = .issue 0x07040000#32 :: [.hostRead 0]
    ∧ decode 0x07040000#32 = .command (.erfc 0 1) := by decide

theorem witness_HostWriteSetsOneRegister :
    (portOf [.hostWrite 7 (BitVec.allOnes 256)]).port = .hostWrite 7 (BitVec.allOnes 256) :: [] := rfl

theorem witness_HostReadReturnsWord :
    (portOf [.hostRead 0, .hostRead 0]).port = .hostRead 0 :: [.hostRead 0]
    ∧ (portOf [.hostRead 0]).w[(0 : Reg)] = (portOf [.hostRead 0, .hostRead 0]).w[(0 : Reg)] := by decide

/-- A unit built with a total exponential returns from any transaction. -/
theorem portOf_nextReturns (l : List Transaction) : (portOf l).NextReturns := fun _ _ _ _ _ => .inl rfl

theorem witness_HostStatusReturnsStatus :
    (portOf [.issue 0#32, .hostWrite 3 1#256, .hostRead 3, .hostStatus]).NextReturns ∧
    (portOf [.hostStatus]).port = .hostStatus :: []
    ∧ (portOf [.issue 0#32, .hostWrite 3 1#256, .hostRead 3, .hostStatus]).port
      = .issue 0#32 :: [.hostWrite 3 1#256, .hostRead 3] ++ .hostStatus :: []
    ∧ ∀ x ∈ ([.hostWrite 3 1#256, .hostRead 3] : List Transaction), (∀ c', x ≠ .issue c') ∧ x ≠ .reset :=
  ⟨portOf_nextReturns _, rfl, rfl, by simp⟩

/-- An `Issue` of EXPW in a unit with a total exponential, and one of ABS in a unit whose exponential is not total. -/
theorem witness_NextReturns :
    (portOf [.issue 0x05040000#32]).NextReturns
    ∧ ({ portOf [.issue 0x04040000#32] with cfg := { Config.default with expwad := .nontotal 0 0 } } : State).NextReturns :=
  ⟨portOf_nextReturns _, by
    rintro c i rest h hd
    cases h
    cases hd
    exact .inr rfl⟩

/-- Both ways for a command to return for certain, and a command that has neither. -/
theorem witness_Returns :
    State.reset.Returns (.expw 0 1)
    ∧ ({ State.reset with cfg := { Config.default with expwad := .nontotal 0 0 } } : State).Returns (.poly 0 1)
    ∧ ¬({ State.reset with cfg := { Config.default with expwad := .nontotal 0 0 } } : State).Returns (.erfc 0 1) := by
  decide

theorem witness_ReadAfterHostWrite :
    (portOf [.hostWrite 2 5#256, .hostRead 2]).port = .hostWrite 2 5#256 :: .hostRead 2 :: []
    ∧ (portOf [.hostWrite 2 5#256, .hostRead 3]).port = .hostWrite 2 5#256 :: .hostRead 3 :: [] := ⟨rfl, rfl⟩

theorem witness_ResetTransaction : (portOf [.reset, .reset]).port = .reset :: [.reset] := rfl

/-- A run of three steps in which `w5` is left alone, and an `Issue` whose destination is another register. -/
theorem witness_RegisterPersists :
    (runs 3 (portOf [.hostWrite 1 5#256, .issue 0x04040000#32, .hostStatus])).isSome = true
    ∧ decode 0x04040000#32 = .command (.abs 0 1) ∧ Instr.dest (.abs 0 1) ≠ 5 := by decide +kernel

theorem witness_StepsTakePortInOrder : step (portOf [.hostStatus]) = .next (hostStatus (portOf [])) := rfl

theorem witness_StepKeepsConfiguration : step (portOf [.reset]) = .next (hostReset (portOf [])) := rfl

/-- The invariant holds of a state with an error in `STATUS`, and the step from it goes on. -/
theorem witness_StepKeepsInvariant :
    ((State.reset.complete 0x07#8)).Inv ∧ step (State.reset.complete 0x07#8) = .next (State.reset.complete 0x07#8) :=
  ⟨by decide, rfl⟩

theorem witness_ReadMarkStaysUntilReset :
    ({ portOf [.hostRead 0] with readUnheld := true } : State).readUnheld = true
    ∧ (∀ rest, ({ portOf [.hostRead 0] with readUnheld := true } : State).port ≠ .reset :: rest)
    ∧ (nextOf (step { portOf [.hostRead 0] with readUnheld := true })).isSome = true
    ∧ ({ portOf [.hostRead 0] with held := Vector.replicate 8 true } : State).readUnheld = false
    ∧ (∀ r : Reg, ({ portOf [.hostRead 0] with held := Vector.replicate 8 true } : State).held[r] = true) :=
  ⟨rfl, by simp [portOf], by decide, rfl, by decide⟩

/-- Two states that agree on the sources of `MULWAD w0, w1, w2` and differ in `STATUS` and in `w0`. -/
theorem witness_OutcomeDependsOnSourcesOnly :
    (regs [(1, 5), (2, 6)]).cfg = ((regs [(0, 9), (1, 5), (2, 6)]).complete 0x07#8).cfg
    ∧ (regs [(1, 5), (2, 6)]).Returns (.mulwad 0 1 2) ∧ (regs [(1, 5), (2, 6)]).cfg.expwad.lawful = true
    ∧ usesExpwad (.mulwad 0 1 2) = false
    ∧ (regs [(1, 5), (2, 6)]).commandCount = ((regs [(0, 9), (1, 5), (2, 6)]).complete 0x07#8).commandCount
    ∧ ∀ r ∈ Instr.sources (.mulwad 0 1 2),
        (regs [(1, 5), (2, 6)]).w[r] = ((regs [(0, 9), (1, 5), (2, 6)]).complete 0x07#8).w[r] := by decide

theorem witness_StatusCodesByCommand : State.reset.cfg = Config.default := rfl

/-- Every sign clause and the zero clause, at the smallest divisors. -/
theorem witness_TruncatedQuotientLaws :
    tdiv 0 1 = 0 ∧ tdiv (-1) (-1) = 1 ∧ tdiv 1 (-1) = -1 ∧ tdiv (-1) 1 = -1 ∧ tdiv (-1) 2 = 0 ∧ tdiv 2 2 = 1
    ∧ (1 : Int) ≠ 0 := by decide

/-- The two ends of what fits, and the first products that do not. -/
theorem witness_OverflowTestByDivision :
    Fits 1 ∧ Fits (-2 ^ 255) ∧ Fits (1 * -2 ^ 255) ∧ ¬Fits (2 * (2 ^ 255 - 1)) ∧ ¬Fits (-1 * -2 ^ 255) := by decide

/-- Both cases of the statement on `MULWAD`, on either side of the boundary: 2^127 times -2^128 and times 2^128. -/
theorem witness_MulwadWritesRescaledProduct :
    (0x01FF8000#32 &&& 0xFF007FFF#32 = 0x01000000#32)
    ∧ Fits ((regs [(1, 2 ^ 127), (2, -2 ^ 128)]).w[(1 : Reg)].toInt
        * (regs [(1, 2 ^ 127), (2, -2 ^ 128)]).w[(2 : Reg)].toInt)
    ∧ ¬Fits ((regs [(1, 2 ^ 127), (2, 2 ^ 128)]).w[(1 : Reg)].toInt
        * (regs [(1, 2 ^ 127), (2, 2 ^ 128)]).w[(2 : Reg)].toInt) := by decide

/-- The three cases of the statement on `DIVWAD`: the largest dividend that fits, the next one, and a zero divisor. -/
theorem witness_DivwadWritesRescaledQuotient :
    (0x02FF8000#32 &&& 0xFF007FFF#32 = 0x02000000#32)
    ∧ Fits (57896044618658097711785492504343953926634992332820282019728 * 10 ^ 18)
    ∧ ¬Fits (57896044618658097711785492504343953926634992332820282019729 * 10 ^ 18)
    ∧ (regs [(1, 5), (2, 0)]).w[(2 : Reg)].toInt = 0 := by decide

/-- The four cases of the statement on `MULDIV`: a product that does not fit over zero, zero over zero, MIN over -1,
and MIN + 1 over -1. -/
theorem witness_MuldivWritesQuotient :
    (0x03FFF000#32 &&& 0xFF000FFF#32 = 0x03000000#32)
    ∧ ¬Fits ((2 ^ 255 - 1) * (2 ^ 255 - 1)) ∧ Fits (0 * 0) ∧ Fits (-2 ^ 255 * 1) ∧ Fits ((-2 ^ 255 + 1) * 1)
    ∧ (regs [(1, MIN), (2, 1), (3, -1)]).w[(3 : Reg)].toInt = -1
    ∧ (regs [(1, MIN), (2, 1), (3, -1)]).w[(1 : Reg)].toInt * 1 = -2 ^ 255 := by decide

theorem witness_AbsWritesMagnitude :
    (0x04FC0000#32 &&& 0xFF03FFFF#32 = 0x04000000#32)
    ∧ (regs [(1, MIN)]).w[(1 : Reg)].toInt = -2 ^ 255 ∧ (regs [(1, MIN + 1)]).w[(1 : Reg)].toInt ≠ -2 ^ 255 := by decide

/-- An exponential of each kind: lawful, total but unlawful, and two states that share a lawful one. -/
theorem witness_ExpwadMeetsContract :
    (Expwad.free 0).lawful = true ∧ (Expwad.unruly 0 0).total = true ∧ (Expwad.unruly 0 0).lawful = false
    ∧ State.reset.cfg.expwad = ({ State.reset with commandCount := 5 } : State).cfg.expwad := by decide

/-- The search is decided by the sum of 400 terms at one end of its range, and by that of 800 at the other. -/
theorem test_search_ends :
    (expSum (-41446531673892822312) 400).decided = true ∧ (expSum 135305999368893231589 400).decided = false
    ∧ (expSum 135305999368893231589 800).decided = true := by
  decide +kernel

/-- Both ends of each property: the thresholds, zero, and two neighbours of zero. -/
theorem witness_ExpwadRefNamedProperties :
    expwadRef (-41446531673892822313) = .ok 0 ∧ expwadRef (-1) = .ok 999999999999999999
    ∧ expwadRef 0 = .ok 1000000000000000000 ∧ (135305999368893231589 : Int) ≤ 135305999368893231589 := by
  decide +kernel

theorem witness_ExpwWritesExponential :
    (0x05FC0000#32 &&& 0xFF03FFFF#32 = 0x05000000#32)
    ∧ F_exp Config.default 0 = .ok (10 ^ 18) ∧ F_exp Config.default 135305999368893231590 = .err .arithmeticOverflow
    ∧ (regs [(1, 135305999368893231590)]).w[(1 : Reg)].toInt = 135305999368893231590
    ∧ (regs [(1, 135305999368893231589)]).w[(1 : Reg)].toInt < 135305999368893231590
    ∧ (regs [(1, -41446531673892822313)]).w[(1 : Reg)].toInt ≤ -41446531673892822313
    ∧ Config.default.expwad = .ref ∧ (regs [(1, 0)]).Returns (.expw 0 1)
    ∧ (regs [(1, 0)]).cfg.expwad.lawful = true := by decide

theorem witness_PolyOnUnitInterval :
    Config.default.admissible = true ∧ (0 : Int) ≤ 10 ^ 18 ∧ Fits (10 ^ 18 * (2 * 10 ^ 18))
    ∧ |(2 * 10 ^ 18 : Int)| ≤ 2 * 10 ^ 18 := by decide

theorem witness_PolyWritesStep :
    (0x06FC0000#32 &&& 0xFF03FFFF#32 = 0x06000000#32)
    ∧ F_poly Config.default (10 ^ 18) = .ok 1265512260000000000
    ∧ F_poly Config.default (10 ^ 23) = .err .arithmeticOverflow
    ∧ (regs [(1, 10 ^ 18)]).cfg.admissible = true ∧ (regs [(1, 10 ^ 18)]).w[(1 : Reg)].toInt ≤ 10 ^ 18 := by decide

theorem witness_ErfcPointSymmetry :
    F_erfc Config.default 5899999999999999999 = .ok 71
    ∧ F_erfc Config.default (-5899999999999999999) = .ok 1999999999999999929
    ∧ Fits (2 ^ 255 - 1) ∧ (2 ^ 255 - 1 : Int) ≠ 0 ∧ (2 ^ 255 - 1 : Int) ≠ -2 ^ 255 := by decide +kernel

theorem witness_ErfcTotalInRange : (regs [(1, MIN)]).cfg = Config.default := rfl

/-- The shortcuts at their bounds, and a configuration under which `F_erfc` ends with an error: `A` so small that the
exponential overflows. -/
theorem witness_ErfcWritesResult :
    (0x07FC0000#32 &&& 0xFF03FFFF#32 = 0x07000000#32)
    ∧ (regs [(1, 5)]).Returns (.erfc 0 1) ∧ (regs [(1, 5)]).cfg.expwad.lawful = true
    ∧ (regs [(1, 5900000000000000000)]).w[(1 : Reg)].toInt = 5900000000000000000
    ∧ (regs [(1, -5900000000000000000)]).w[(1 : Reg)].toInt = -5900000000000000000
    ∧ F_erfc Config.default 5899999999999999999 = .ok 71
    ∧ F_erfc { Config.default with A := -10 ^ 30 } 0 = .err .arithmeticOverflow := by decide +kernel

/-- The closed bounds and one unit past each of them. -/
theorem witness_CdfValid :
    CdfValid (10 ^ 23) (10 ^ 20) (10 ^ 19) ∧ CdfValid (-10 ^ 23) (-10 ^ 20) 1 ∧ ¬CdfValid (10 ^ 23 + 1) 0 1
    ∧ ¬CdfValid (-10 ^ 23 - 1) 0 1 ∧ ¬CdfValid 0 (10 ^ 20 + 1) 1 ∧ ¬CdfValid 0 (-10 ^ 20 - 1) 1
    ∧ ¬CdfValid 0 0 (10 ^ 19 + 1) ∧ ¬CdfValid 0 0 0 := by decide

/-- A state for each case of the order of validation. -/
theorem witness_CdfValidationOrder :
    (regs [(1, 1), (2, 1), (3, 1)]).Returns (.cdf 0 1 2 3) ∧ (regs [(1, 1), (2, 1), (3, 1)]).cfg.expwad.lawful = true
    ∧ (regs [(1, 10 ^ 23 + 1), (2, 10 ^ 20 + 1), (3, 0)]).w[(1 : Reg)].toInt = 10 ^ 23 + 1
    ∧ (regs [(1, 10 ^ 23), (2, 10 ^ 20 + 1), (3, 0)]).w[(2 : Reg)].toInt = 10 ^ 20 + 1
    ∧ (regs [(1, 10 ^ 23), (2, 10 ^ 20), (3, 0)]).w[(3 : Reg)].toInt = 0
    ∧ (regs [(1, 10 ^ 23), (2, 10 ^ 20), (3, 10 ^ 19)]).w[(3 : Reg)].toInt = 10 ^ 19 := by decide

theorem witness_CdfTotalInUnitRange :
    (regs [(1, 10 ^ 23), (2, -10 ^ 20), (3, 1)]).cfg = Config.default
    ∧ CdfValid (regs [(1, 10 ^ 23), (2, -10 ^ 20), (3, 1)]).w[(1 : Reg)].toInt
        (regs [(1, 10 ^ 23), (2, -10 ^ 20), (3, 1)]).w[(2 : Reg)].toInt
        (regs [(1, 10 ^ 23), (2, -10 ^ 20), (3, 1)]).w[(3 : Reg)].toInt := by decide

theorem witness_CdfAtMean :
    Config.default.admissible = true ∧ CdfValid (10 ^ 20) (10 ^ 20) 1
    ∧ F_erfc Config.default 0 = .ok 1000000030000000450 := by decide +kernel

/-- Both ends of the saturation, at the first `x` on each side. -/
theorem witness_CdfSaturates :
    CdfValid 8343860018001260784 0 (10 ^ 18) ∧ CdfValid (-8343860018001260784) 0 (10 ^ 18)
    ∧ -Int.tdiv ((8343860018001260784 - 0) * 10 ^ 36) (1414213562373095048 * 10 ^ 18) ≤ -5900000000000000000
    ∧ 5900000000000000000 ≤ -Int.tdiv ((-8343860018001260784 - 0) * 10 ^ 36) (1414213562373095048 * 10 ^ 18) := by
  decide

/-- A configuration for each error `F_cdf` can end with, and the operands of the corner cases. -/
theorem witness_CdfWritesResult :
    (0x08FFF000#32 &&& 0xFF000FFF#32 = 0x08000000#32)
    ∧ (regs [(1, 1), (2, 1), (3, 1)]).Returns (.cdf 0 1 2 3)
    ∧ F_cdf Config.default 1 1 1 = .ok 500000015000000225
    ∧ F_cdf Config.default (10 ^ 23 + 1) 0 1 = .err .xOutOfBounds
    ∧ F_cdf Config.default 0 (10 ^ 20 + 1) 1 = .err .muOutOfBounds
    ∧ F_cdf Config.default 0 0 0 = .err .sigmaOutOfBounds
    ∧ F_cdf { Config.default with A := -10 ^ 30 } 0 0 1 = .err .arithmeticOverflow
    ∧ F_cdf { Config.default with SQRT2 := 0 } 0 0 1 = .err .divideByZero
    ∧ F_cdf Config.default (10 ^ 20 + 1) (10 ^ 20) 1 = .ok 841344738604325374
    ∧ F_cdf Config.default (-10 ^ 20 + 10 ^ 18) (-10 ^ 20) (10 ^ 18) = .ok 841344738604325374 := by decide +kernel

theorem witness_UnitsAreIndependent :
    (0 : Fin 2) ≠ 1 ∧ (#v[portOf [.hostStatus], portOf [.reset]] : System 2)[(0 : Fin 2)].NextReturns
    ∧ (#v[portOf [.hostStatus], portOf [.reset]] : System 2)[(1 : Fin 2)].NextReturns :=
  ⟨by decide, portOf_nextReturns _, portOf_nextReturns _⟩

theorem witness_WordBytesAreBigEndian : (word (-1)).toInt < 0 ∧ (word MIN).toInt < 0 := by decide

theorem witness_VectorFilesLayout :
    ([⟨1#256, 2#256, 3#256⟩, ⟨4#256, 5#256, 6#256⟩] : List InputTriple)[1]? = some ⟨4#256, 5#256, 6#256⟩
    ∧ ([1#256, 2#256] : List Word)[1]? = some 2#256 := by decide

theorem witness_HarnessElementReadsCdf :
    (portOf (harnessElement ⟨word (10 ^ 23), word (-10 ^ 20), word 1⟩)).cfg = Config.default
    ∧ CdfValid (word (10 ^ 23)).toInt (word (-10 ^ 20)).toInt (word 1).toInt
    ∧ (portOf (harnessElement ⟨word (10 ^ 23), word (-10 ^ 20), word 1⟩)).port
      = harnessElement ⟨word (10 ^ 23), word (-10 ^ 20), word 1⟩ ++ [] := by decide

end Sys2Proof.Tests
end

section
/-! PROOFS. Proofs/Scope.lean: the statements on scope (spec 00_scope.md): the truncated quotient (R10,
R81), what a command's outcome depends on (R14), several units (R8, R165) and the state right after reset (R27). -/

namespace Sys2Proof.Machine

/-! ### The truncated quotient (R10, R81) -/

section TruncatedQuotient
variable (p d : Int)

theorem tdiv_nonneg_of_same_sign {p d : Int} (h : (0 ≤ p ∧ 0 < d) ∨ (p ≤ 0 ∧ d < 0)) : 0 ≤ tdiv p d := by
  rw [tdiv_eq_tdiv]
  rcases h with ⟨hp, hd⟩ | ⟨hp, hd⟩
  · exact Int.tdiv_nonneg hp hd.le
  · exact Int.tdiv_nonneg_of_nonpos_of_nonpos hp hd.le

theorem tdiv_neg_left : tdiv (-p) d = -tdiv p d := by simp only [tdiv_eq_tdiv, Int.neg_tdiv]

theorem tdiv_neg_right : tdiv p (-d) = -tdiv p d := by simp only [tdiv_eq_tdiv, Int.tdiv_neg]

/-- The quotient of operands of opposite signs is the negated quotient of operands of the same sign. -/
theorem tdiv_nonpos_of_opposite_sign {p d : Int} (h : (0 ≤ p ∧ d < 0) ∨ (p ≤ 0 ∧ 0 < d)) : tdiv p d ≤ 0 := by
  have hneg : 0 ≤ tdiv p (-d) := tdiv_nonneg_of_same_sign (by omega)
  rw [tdiv_neg_right] at hneg
  omega

/-- The magnitude of the quotient is the quotient of the magnitudes, which is 0 exactly below the divisor. -/
theorem tdiv_eq_zero_iff {p d : Int} (hd : d ≠ 0) : tdiv p d = 0 ↔ |p| < |d| := by
  have hmag : (tdiv p d).natAbs = p.natAbs / d.natAbs := by rw [tdiv_eq_tdiv, Int.natAbs_tdiv]; rfl
  rw [← Int.natAbs_eq_zero, hmag, Nat.div_eq_zero_iff_lt (Int.natAbs_pos.mpr hd), Int.abs_eq_natAbs,
    Int.abs_eq_natAbs, Int.ofNat_lt]

theorem sub_mul_tdiv_eq_tmod : p - d * tdiv p d = Int.tmod p d := by rw [tdiv_eq_tdiv, Int.tmod_def]

theorem abs_sub_mul_tdiv_lt {d : Int} (hd : d ≠ 0) : |p - d * tdiv p d| < |d| := by
  rw [sub_mul_tdiv_eq_tmod, Int.abs_eq_natAbs, Int.abs_eq_natAbs, Int.natAbs_tmod, Int.ofNat_lt]
  exact Nat.mod_lt _ (Int.natAbs_pos.mpr hd)

theorem sub_mul_tdiv_nonneg {p : Int} (hp : 0 ≤ p) : 0 ≤ p - d * tdiv p d := by
  rw [sub_mul_tdiv_eq_tmod]
  exact Int.tmod_nonneg d hp

theorem sub_mul_tdiv_nonpos {p : Int} (hp : p ≤ 0) : p - d * tdiv p d ≤ 0 := by
  have hneg : 0 ≤ (-p).tmod d := Int.tmod_nonneg d (by omega)
  rw [Int.neg_tmod] at hneg
  rw [sub_mul_tdiv_eq_tmod]
  omega

end TruncatedQuotient

/-- Settles O29: each law is a fact about the truncated quotient of the library, or about its remainder. -/
theorem truncatedQuotientLaws : Obligations.TruncatedQuotientLaws := by
  refine ⟨fun p d hd => ?_, by decide⟩
  exact ⟨tdiv_nonneg_of_same_sign, tdiv_nonpos_of_opposite_sign, tdiv_eq_zero_iff hd, tdiv_neg_left p d,
    tdiv_neg_right p d, by rw [tdiv_neg_left, tdiv_neg_right, neg_neg], by rw [tdiv_eq_tdiv, Int.zero_tdiv],
    abs_sub_mul_tdiv_lt p hd, sub_mul_tdiv_nonneg d, sub_mul_tdiv_nonpos d⟩

/-! ### What a command's outcome depends on (R14) -/

section Dependence
variable {s s' : State}

/-- Two units meet the same configuration at a command if they were built alike and their exponential meets R100 or
has been used equally often. -/
theorem cfgNow_congr (hcfg : s.cfg = s'.cfg)
    (h : s.cfg.expwad.lawful = true ∨ s.commandCount = s'.commandCount) : s.cfgNow = s'.cfgNow := by
  rcases h with hlaw | hcount
  · rw [cfgNow_of_lawful hlaw, cfgNow_of_lawful (hcfg ▸ hlaw), hcfg]
  · rw [State.cfgNow, State.cfgNow, hcfg, hcount]

/-- The outcome of a command's function is determined by the configuration and the words in its sources; the
configuration as changed by use matters only to a command that calls the exponential. -/
theorem outcome_congr {i : Instr} (hcfg : s.cfg = s'.cfg) (hnow : usesExpwad i = true → s.cfgNow = s'.cfgNow)
    (hsrc : ∀ r ∈ i.sources, s.w[r] = s'.w[r]) : outcome s i = outcome s' i := by
  have hop : ∀ r ∈ i.sources, s.operand r = s'.operand r := fun r hr => congrArg sval (hsrc r hr)
  cases i with
  | mulwad | divwad | muldiv | abs =>
    simp only [Instr.sources, List.forall_mem_cons] at hop
    simp only [outcome, hop]
  | poly =>
    simp only [Instr.sources, List.forall_mem_cons] at hop
    simp only [outcome, hcfg, hop]
  | expw | erfc | cdf =>
    simp only [Instr.sources, List.forall_mem_cons] at hop
    simp only [outcome, hnow rfl, hop]

/-- A command's code, its reply and the word it writes are read off its function's outcome (R65, R153, R154). -/
theorem command_congr {t t' : State} {rd : Reg} {srcs : List Reg} {o : FnOutcome} (h : s.command rd srcs o = .next t)
    (h' : s'.command rd srcs o = .next t') :
    t.status = t'.status ∧ t.reply = t'.reply ∧ (t.status = 0x00#8 → t.w[rd] = t'.w[rd]) := by
  obtain ⟨hcode, hreply, -, -, -, -, -, hdest, -⟩ := command_spec h
  obtain ⟨hcode', hreply', -, -, -, -, -, hdest', -⟩ := command_spec h'
  have hstatus : t.status = t'.status := Option.some.inj (hcode.symm.trans hcode')
  refine ⟨hstatus, by rw [hreply, hreply', hstatus], fun hok => ?_⟩
  cases o with
  | ok v => exact (hdest v rfl).1.trans (hdest' v rfl).1.symm
  | err e => exact absurd ((Option.some.inj hcode).trans hok) (code_ne_codeOk e)
  | noReturn => cases hcode

end Dependence

/-- Settles O27: the two states give the command's function the same outcome, and the command is the common execution
sequence on that outcome. -/
theorem outcomeDependsOnSourcesOnly : Obligations.OutcomeDependsOnSourcesOnly := by
  intro i s s' hret hcfg hexp hsrc
  have hnow : usesExpwad i = true → s.cfgNow = s'.cfgNow := fun hu =>
    cfgNow_congr hcfg (hexp.imp_right fun h => h.resolve_left (by simp [hu]))
  have hout : outcome s i = outcome s' i := outcome_congr hcfg hnow hsrc
  have hne : outcome s i ≠ .noReturn := outcome_returns hret
  obtain ⟨t, ht⟩ := command_returns s i.dest i.sources hne
  obtain ⟨t', ht'⟩ := command_returns s' i.dest i.sources hne
  exact ⟨t, t', by rw [exec_eq, ht], by rw [exec_eq, ← hout, ht'], command_congr ht ht'⟩

/-! ### Several units (R8, R165) -/

/-- A step whose transaction returns for certain ends in a next state (R30, R186): the only transaction that could
fail to is an `Issue` of a command. -/
theorem step_returns {s : State} (h : s.NextReturns) : ∃ t, step s = .next t := by
  match hp : s.port with
  | [] => exact ⟨_, step_idle hp⟩
  | .hostWrite _ _ :: _ => exact ⟨_, step_hostWrite hp⟩
  | .hostRead _ :: _ => exact ⟨_, step_hostRead hp⟩
  | .hostStatus :: _ => exact ⟨_, step_hostStatus hp⟩
  | .reset :: _ => exact ⟨_, step_reset hp⟩
  | .issue c :: rest =>
    rw [step_issue hp]
    match hd : decode c with
    | .command i =>
      have hret : ({ s with port := rest } : State).Returns i := h c i rest hp hd
      rw [issueCommand_of_command hd]
      exact command_returns _ _ _ (outcome_returns hret)
    | .illegal r => exact ⟨_, issueCommand_of_illegal hd _⟩

section Units
variable {n : Nat} {sys : System n} {i j : Fin n} {t : State}

theorem stepUnit_of_next (h : step sys[i] = .next t) : sys.stepUnit i = .next (sys.set i t) := by
  simp only [System.stepUnit, h]

theorem system_set_other (hij : i ≠ j) : (sys.set i t)[j] = sys[j] :=
  Vector.getElem_set_ne _ _ (Fin.val_ne_of_ne hij)

end Units

/-- Settles O56: each unit's step reads and replaces its own entry of the system, and replacing two different entries
gives the same system in either order. -/
theorem unitsAreIndependent : Obligations.UnitsAreIndependent := by
  intro n sys i j hij hi hj
  obtain ⟨ti, hti⟩ := step_returns hi
  obtain ⟨tj, htj⟩ := step_returns hj
  have hother : (sys.set i ti)[j] = sys[j] := system_set_other hij
  have hself : (sys.set i ti)[i] = ti := Vector.getElem_set_self _
  have hcomm : (sys.set i ti).set j tj = (sys.set j tj).set i ti := Vector.set_comm _ _ (Fin.val_ne_of_ne hij)
  refine ⟨sys.set i ti, sys.set j tj, (sys.set i ti).set j tj, stepUnit_of_next hti, stepUnit_of_next htj, hother,
    by rw [hself, hti], stepUnit_of_next (by rw [hother, htj]), ?_⟩
  rw [hcomm]
  exact stepUnit_of_next (by rw [system_set_other hij.symm, hti])

/-! ### The state right after reset (R27, R180) -/

theorem reset_held (r : Reg) : State.reset.held[r] = false := by
  simp [State.reset]

/-- Settles O17: the marks are clear in every register, and each other field is written out in `State.reset`. -/
theorem resetStateValues : Obligations.ResetStateValues :=
  ⟨rfl, reset_held, rfl, rfl, rfl, rfl⟩

end Sys2Proof.Machine
end

section
/-! PROOFS. Proofs/StateRules.lean: the statements on the state and its transitions (spec 10_state.md): what a step does
to the port, the configuration, the registers, the invariant and the mark of R28, and what can keep it from
completing. -/

namespace Sys2Proof

/-- A command's word decodes to the command: its fields pass the test of the command's own row and of no earlier one. -/
theorem decode_encode (i : Instr) : decode (encode i) = .command i := by
  cases i <;> simp [encode, r4Word_eq, decode_fields, ofWord_toWord]

/-- A command word written as a table word of 32 bits is itself (R60). -/
theorem tableWord_toNat (c : CommandWord) : tableWord 32 c.toNat = c := by
  rw [tableWord, Nat.mod_eq_of_lt c.isLt, BitVec.ofNat_toNat, BitVec.setWidth_eq]

end Sys2Proof

namespace Sys2Proof.Machine

/-! ### Status codes (R150) -/

theorem code_le_seven (e : FnError) : code e ≤ 0x07#8 := by cases e <;> decide

/-- No function raises `IllegalCommand` (R155). -/
theorem code_ne_codeIllegalCommand (e : FnError) : code e ≠ codeIllegalCommand := by cases e <;> decide

/-! ### What a transaction does to the registers and the mark -/

section Transactions
variable {s t : State}

/-- A `HostWrite` leaves the other registers and their marks (R42). -/
theorem hostWrite_other {i r : Reg} (b : Word) (hne : r ≠ i) :
    (hostWrite i b s).w[r] = s.w[r] ∧ (hostWrite i b s).held[r] = s.held[r] :=
  ⟨regWord_writeReg_ne s b hne, holds_writeReg_ne s b hne⟩

/-- A command that returns completes with `0x00` and a value in its destination, or with an error's code and every
register as it was (R154). -/
theorem command_completes {rd : Reg} {srcs : List Reg} {o : FnOutcome} (h : s.command rd srcs o = .next t) :
    (t.status = codeOk ∧ t.held[rd] = true) ∨ ∃ e, t.status = code e ∧ t.w = s.w ∧ t.held = s.held := by
  obtain ⟨hcode, -, -, -, -, -, -, hdest, -, hkept⟩ := command_spec h
  cases o with
  | ok v => exact .inl ⟨(Option.some.inj hcode).symm, (hdest v rfl).2⟩
  | err e => exact .inr ⟨e, (Option.some.inj hcode).symm, hkept e rfl⟩
  | noReturn => cases hcode

/-- No later read takes the mark away (R158). -/
theorem noteReads_keeps_mark (rs : List Reg) (h : s.readUnheld = true) : (s.noteReads rs).readUnheld = true :=
  (noteReads_readUnheld_iff s rs).mpr (.inl h)

end Transactions

/-! ### Every step: the port, the configuration and the registers -/

section Step
variable {s t u : State} {r : Reg}

/-- No transaction changes what stands behind it at the port, and none the configuration (R26, R50). -/
theorem perform_port_cfg {x : Transaction} (h : perform x s = .next t) : t.port = s.port ∧ t.cfg = s.cfg := by
  cases x with
  | issue c => exact (issueCommand_next h).2
  | hostWrite | hostRead | hostStatus | reset =>
    cases h
    exact ⟨rfl, rfl⟩

/-- A step takes the first transaction off the port and leaves the configuration (R26, R50). -/
theorem step_port_cfg (h : step s = .next t) : t.port = s.port.tail ∧ t.cfg = s.cfg := by
  match hp : s.port with
  | [] =>
    rw [step_idle hp] at h
    cases h
    exact ⟨hp, rfl⟩
  | x :: rest =>
    have hperform : perform x { s with port := rest } = .next t := by simpa only [step, performNext, hp] using h
    exact perform_port_cfg hperform

/-- A transaction that does not write `w[r]`: no `Reset`, no `HostWrite` to it and no `Issue` of a command whose
destination it is (R29). -/
def Transaction.Keeps (x : Transaction) (r : Reg) : Prop :=
  x ≠ .reset ∧ (∀ b, x ≠ .hostWrite r b) ∧ ∀ c i, x = .issue c → decode c = .command i → i.dest ≠ r

/-- A register and its mark stay over a step whose transaction does not write it (R29). -/
theorem step_keeps_register (h : step s = .next t) (hkeep : ∀ x rest, s.port = x :: rest → x.Keeps r) :
    t.w[r] = s.w[r] ∧ t.held[r] = s.held[r] := by
  rcases step_cases h with ⟨-, rfl⟩ | ⟨i, b, rest, hp, rfl⟩ | ⟨i, rest, -, rfl⟩ | ⟨rest, -, rfl⟩ | ⟨rest, hp, rfl⟩
    | ⟨c, i, rest, hp, hd, hcmd⟩ | ⟨c, _, rest, -, -, rfl⟩
  · exact ⟨rfl, rfl⟩
  · obtain ⟨-, hwrite, -⟩ := hkeep _ _ hp
    exact hostWrite_other b fun e => hwrite b (by rw [e])
  · exact ⟨rfl, rfl⟩
  · exact ⟨rfl, rfl⟩
  · exact absurd rfl (hkeep _ _ hp).1
  · obtain ⟨-, -, hdest⟩ := hkeep _ _ hp
    obtain ⟨-, -, -, -, -, -, -, -, hothers, -⟩ := command_spec hcmd
    exact hothers r (hdest c i rfl hd).symm
  · exact ⟨rfl, rfl⟩

/-- A run of `n + 1` steps is a step and a run of `n`. -/
theorem run_succ_next {M : Host.Core} {n : Nat} {s u : M.State} (h : M.run (n + 1) s = .next u) :
    ∃ t, M.step s = .next t ∧ M.run n t = .next u := by
  rw [Host.Core.run] at h
  split at h
  · exact ⟨_, ‹_›, h⟩
  · cases h
  · cases h

/-- A register and its mark stay over a run none of whose transactions writes it (R187). -/
theorem run_keeps_register {n : Nat} (h : Sys2Proof.core.run n s = .next u)
    (hkeep : ∀ x ∈ s.port.take n, x.Keeps r) : u.w[r] = s.w[r] ∧ u.held[r] = s.held[r] := by
  induction n generalizing s with
  | zero =>
    cases h
    exact ⟨rfl, rfl⟩
  | succ n ih =>
    obtain ⟨t, hstep, hrun⟩ := run_succ_next h
    have hport : t.port.take n = (s.port.take (n + 1)).tail := by
      rw [(step_port_cfg hstep).1, List.tail_take_eq_take_tail, Nat.add_sub_cancel]
    obtain ⟨hw, hheld⟩ := step_keeps_register hstep fun x rest hp => hkeep x (by simp [hp])
    obtain ⟨hw', hheld'⟩ := ih hrun fun x hx => hkeep x (List.mem_of_mem_tail (hport ▸ hx))
    exact ⟨hw'.trans hw, hheld'.trans hheld⟩

end Step

/-- Settles O20: the port after a step is the tail of the port before it. -/
theorem stepsTakePortInOrder : Obligations.StepsTakePortInOrder :=
  fun _ _ h => (step_port_cfg h).1

/-- Settles O21: no transaction, a `Reset` included, assigns the configuration. -/
theorem stepKeepsConfiguration : Obligations.StepKeepsConfiguration :=
  fun _ _ h => (step_port_cfg h).2

/-- Settles O19: the step returns, and the tail of a port that is not empty is shorter. -/
theorem everyStepCompletes : Obligations.EveryStepCompletes := by
  intro s hret
  obtain ⟨t, ht⟩ := step_returns hret
  refine ⟨t, ht, fun hne => ?_⟩
  rw [(step_port_cfg ht).1, List.length_tail]
  exact Nat.sub_one_lt (List.length_eq_zero_iff.not.mpr hne)

/-- Settles O16, by induction on the number of steps. -/
theorem registerPersists : Obligations.RegisterPersists :=
  fun _ _ _ _ hrun hkeep => run_keeps_register hrun hkeep

/-- Settles O18, by the cases of the transaction at the port. -/
theorem onlyThreeTransactionsChangeState : Obligations.OnlyThreeTransactionsChangeState := by
  intro s hret
  obtain ⟨t, ht⟩ := step_returns hret
  refine ⟨t, ht, ?_⟩
  rcases step_cases ht with ⟨hp, rfl⟩ | ⟨i, b, rest, hp, rfl⟩ | ⟨i, rest, hp, rfl⟩ | ⟨rest, hp, rfl⟩ | ⟨rest, hp, rfl⟩
    | ⟨c, i, rest, hp, hd, hcmd⟩ | ⟨c, _, rest, hp, hd, rfl⟩
  · simp only [hp]
  · simp only [hp]
    exact ⟨regWord_hostWrite_self _ i b, holds_hostWrite_self _ i b, fun r hr => hostWrite_other b hr, rfl⟩
  · simp only [hp]
    exact ⟨rfl, rfl, rfl⟩
  · simp only [hp]
    exact ⟨rfl, rfl, rfl⟩
  · simp only [hp]
    exact ⟨rfl, reset_held⟩
  · obtain ⟨-, hreply, -, -, -, -, -, -, hothers, -⟩ := command_spec hcmd
    simp only [hp, hd]
    refine ⟨hreply, ?_⟩
    rcases command_completes hcmd with ⟨hok, hdest⟩ | ⟨e, herr, hkept⟩
    · exact ⟨by rw [hok]; decide, fun hne => absurd hok hne, fun _ => hdest, hothers⟩
    · exact ⟨herr ▸ code_ne_codeIllegalCommand e, fun _ => hkept,
        fun hok => absurd (herr.symm.trans hok) (code_ne_codeOk e), hothers⟩
  · simp only [hp, hd]
    exact ⟨rfl, rfl, rfl, rfl⟩

/-! ### The invariant (R24, R45, R158) -/

/-- A unit has the invariant right after a command completed: the reply is the code, and a code other than `0x00` has
set the ghost bit (R153, R158). -/
theorem inv_of_completion {t : State} {b : Bool} (hcode : t.status ≤ 0x07#8) (hreply : t.reply = .code t.status)
    (hfaulted : t.faulted = (b || t.status != codeOk)) : t.Inv := by
  refine ⟨hcode, fun hne => ?_, by simp [State.replyAgrees, hreply]⟩
  have hset : (t.status != codeOk) = true := bne_iff_ne.mpr hne
  rw [hfaulted, hset, Bool.or_true]

/-- Settles O22: a transaction that completes no command leaves or clears `STATUS` together with the ghost bit, and its
reply is none, a word or `STATUS` itself. -/
theorem stepKeepsInvariant : Obligations.StepKeepsInvariant := by
  intro s t hinv h
  have ⟨hcode, hfault, _⟩ := hinv
  rcases step_cases h with ⟨-, rfl⟩ | ⟨i, b, rest, -, rfl⟩ | ⟨i, rest, -, rfl⟩ | ⟨rest, -, rfl⟩ | ⟨rest, -, rfl⟩
    | ⟨c, i, rest, -, -, hcmd⟩ | ⟨c, _, rest, -, -, rfl⟩
  · exact hinv
  · exact ⟨hcode, hfault, rfl⟩
  · exact ⟨hcode, hfault, rfl⟩
  · exact ⟨hcode, hfault, by simp [State.replyAgrees]⟩
  · exact ⟨by simp, by simp, rfl⟩
  · obtain ⟨-, hreply, hfaulted, -⟩ := command_spec hcmd
    refine inv_of_completion ?_ hreply hfaulted
    rcases command_completes hcmd with ⟨hok, -⟩ | ⟨e, herr, -⟩
    · rw [hok]
      decide
    · rw [herr]
      exact code_le_seven e
  · exact inv_of_completion (BitVec.le_refl _) rfl rfl

/-- Settles O23: `STATUS` is `0x00` and nothing has been returned. -/
theorem resetHasInvariant : Obligations.ResetHasInvariant :=
  ⟨by decide, fun hne => absurd rfl hne, rfl⟩

/-! ### The mark of a read without a value (R28, R158, R182) -/

/-- A step is a `Reset`, which clears the mark, or the mark becomes what the reads of some registers make it. -/
theorem step_readUnheld {s t : State} (h : step s = .next t) :
    ((∃ rest, s.port = .reset :: rest) ∧ t.readUnheld = false) ∨ ∃ rs, t.readUnheld = (s.noteReads rs).readUnheld := by
  have hnone : (s.noteReads []).readUnheld = s.readUnheld := by rw [noteReads_of_holds s [] (by simp)]
  rcases step_cases h with ⟨-, rfl⟩ | ⟨i, b, rest, -, rfl⟩ | ⟨i, rest, -, rfl⟩ | ⟨rest, -, rfl⟩ | ⟨rest, hp, rfl⟩
    | ⟨c, i, rest, -, -, hcmd⟩ | ⟨c, _, rest, -, -, rfl⟩
  · exact .inr ⟨[], hnone.symm⟩
  · exact .inr ⟨[], hnone.symm⟩
  · exact .inr ⟨[i], rfl⟩
  · exact .inr ⟨[], hnone.symm⟩
  · exact .inl ⟨⟨rest, hp⟩, rfl⟩
  · obtain ⟨-, -, -, hmark, -⟩ := command_spec hcmd
    exact .inr ⟨i.sources, hmark⟩
  · exact .inr ⟨[], hnone.symm⟩

/-- Settles O24: reads only add to the mark, and reads of registers that hold values add nothing. -/
theorem readMarkStaysUntilReset : Obligations.ReadMarkStaysUntilReset := by
  intro s t h
  rcases step_readUnheld h with ⟨⟨rest, hp⟩, hclear⟩ | ⟨rs, hmark⟩
  · exact ⟨fun _ hno => absurd hp (hno rest), fun _ _ => hclear⟩
  · refine ⟨fun hset _ => hmark.trans (noteReads_keeps_mark rs hset), fun hclear hheld => ?_⟩
    rw [hmark, noteReads_of_holds s rs fun r _ => hheld r, hclear]

/-- Settles O26: the command's sources are the registers the common execution sequence marks (R65). -/
theorem commandMarksUnheldSources : Obligations.CommandMarksUnheldSources := by
  intro i s hret
  obtain ⟨t, ht⟩ := command_returns s i.dest i.sources (outcome_returns hret)
  obtain ⟨-, -, -, hmark, -⟩ := command_spec ht
  refine ⟨t, by rw [exec_eq, ht], ?_⟩
  rw [hmark]
  exact noteReads_readUnheld_iff s i.sources

/-! ### What can keep a step from completing (U5) -/

/-- A command is stuck exactly if its function does not return. -/
theorem exec_eq_fault_iff (i : Instr) (s : State) :
    exec i s = .fault .expwadDoesNotReturn ↔ outcome s i = .noReturn := by
  refine ⟨fun h => ?_, fun h => by rw [exec_eq, h, command_noReturn]⟩
  rcases exec_cases i s with ⟨t, ht⟩ | ⟨-, hstuck⟩
  · rw [ht] at h
    cases h
  · exact hstuck

/-- A step that does not complete is the fault of an `Issue` of a command that calls an exponential which is not
total. -/
theorem step_next_or_stuck (s : State) : (∃ t, step s = .next t)
    ∨ (step s = .fault .expwadDoesNotReturn ∧ s.cfg.expwad.total = false
        ∧ ∃ c i rest, s.port = .issue c :: rest ∧ decode c = .command i ∧ usesExpwad i = true) := by
  by_cases hret : s.NextReturns
  · exact .inl (step_returns hret)
  simp only [State.NextReturns, not_forall] at hret
  obtain ⟨c, i, rest, hp, hd, hno⟩ := hret
  obtain ⟨hpartial, hcalls⟩ := not_or.mp hno
  have hexec : step s = exec i { s with port := rest } := by
    rw [step_issue hp, issueCommand_of_command hd, exec_eq]
  rcases exec_cases i { s with port := rest } with ⟨t, ht⟩ | ⟨hfault, -⟩
  · exact .inl ⟨t, hexec.trans ht⟩
  · exact .inr ⟨hexec.trans hfault, Bool.eq_false_of_not_eq_true hpartial, c, i, rest, hp, hd,
      Bool.eq_true_of_not_eq_false hcalls⟩

/-- Settles O60: the three commands' outcomes are those of their functions on the words of their sources. -/
theorem onlyNontotalExpwadStops : Obligations.OnlyNontotalExpwadStops :=
  ⟨step_next_or_stuck, fun s rd ra rb rc =>
    ⟨exec_eq_fault_iff (.expw rd ra) s, exec_eq_fault_iff (.erfc rd ra) s, exec_eq_fault_iff (.cdf rd ra rb rc) s⟩⟩

/-! ### The word placed as the next fetch (R23, R44) -/

/-- Settles O10: the word is an `Issue` in front of the port, and it decodes to the command. -/
theorem fetchWordRuns : Obligations.FetchWordRuns := by
  intro s i
  have hp : (s.withFetchWord 32 (encode i).toNat).port = .issue (encode i) :: s.port := by
    simp only [State.withFetchWord, State.issueNext, tableWord_toNat]
  rw [step_issue hp, issueCommand_of_command (decode_encode i), exec_eq]
  rfl

end Sys2Proof.Machine
end

section
/-! PROOFS. Proofs/Memory.lean: the statements on the host port, the byte images and the vector files (spec
20_memory.md): what each transaction does and returns (R42 to R45), big-endian words and commands (R47), and the
files and transactions of a harness (R48). -/

namespace Sys2Proof.Machine

/-! ### The transactions of the host port (R42 to R45) -/

/-- Settles O9: the command at the port is the common execution sequence on its function's outcome (R65). -/
theorem stepRunsDecodedCommand : Obligations.StepRunsDecodedCommand := by
  intro s c rest i hp hd
  rw [step_issue hp, issueCommand_of_command hd, exec_eq]

/-- Settles O11: the rules of `HostWrite`, field by field. -/
theorem hostWriteSetsOneRegister : Obligations.HostWriteSetsOneRegister :=
  fun _ i b _ hp => ⟨_, step_hostWrite hp, regWord_hostWrite_self _ i b, holds_hostWrite_self _ i b,
    fun _ hne => hostWrite_other b hne, rfl, rfl, rfl, rfl, rfl, rfl⟩

/-- A `HostRead` assigns its reply and the ghost mark of R28, and nothing else (R43). -/
theorem hostRead_eq (i : Reg) (s : State) :
    hostRead i s = { s with reply := .word s.w[i], readUnheld := s.readUnheld || !s.held[i] } := by
  simp [hostRead, State.noteReads, State.regWord, State.holds]

theorem step_hostRead_eq {s : State} {i : Reg} {rest : List Transaction} (hp : s.port = .hostRead i :: rest) :
    step s = .next { s with port := rest, reply := .word s.w[i], readUnheld := s.readUnheld || !s.held[i] } := by
  rw [step_hostRead hp, hostRead_eq]

/-- Settles O12: the reply is a function of the register's word alone. -/
theorem hostReadReturnsWord : Obligations.HostReadReturnsWord :=
  fun _ _ _ hp => ⟨step_hostRead_eq hp, fun _ _ hp' hw => ⟨_, step_hostRead_eq hp', by rw [hw], rfl, rfl, rfl⟩⟩

/-- Settles O14: the read replies with the register as the write left it. -/
theorem readAfterHostWrite : Obligations.ReadAfterHostWrite := by
  intro s i j b rest hp
  refine ⟨_, _, step_hostWrite hp, step_hostRead_eq rfl, congrArg Reply.word ?_⟩
  split
  next h =>
    subst h
    exact regWord_hostWrite_self _ j b
  next hne => exact (hostWrite_other b hne).1

/-! ### What `HostStatus` returns (R45) -/

section HostStatus
variable {s t : State} {between rest : List Transaction}

/-- A run whose first step is known is the run from the state after it. -/
theorem run_succ_of_step (n : Nat) (h : step s = .next t) :
    Sys2Proof.core.run (n + 1) s = Sys2Proof.core.run n t := by
  have hcore : Sys2Proof.core.step s = .next t := h
  simp only [Host.Core.run, hcore]

/-- A transaction that is neither an `Issue` nor a `Reset` returns and leaves `STATUS` (R29). -/
theorem step_keeps_status {x : Transaction} (hp : s.port = x :: rest) (hissue : ∀ c, x ≠ .issue c)
    (hreset : x ≠ .reset) : ∃ t, step s = .next t ∧ t.port = rest ∧ t.status = s.status := by
  cases x with
  | hostWrite => exact ⟨_, step_hostWrite hp, rfl, rfl⟩
  | hostRead => exact ⟨_, step_hostRead hp, rfl, rfl⟩
  | hostStatus => exact ⟨_, step_hostStatus hp, rfl, rfl⟩
  | issue c => exact absurd rfl (hissue c)
  | reset => exact absurd rfl hreset

/-- A `HostStatus` behind transactions that are neither an `Issue` nor a `Reset` returns `STATUS` as it stands before
them. -/
theorem run_hostStatus (hquiet : ∀ x ∈ between, (∀ c, x ≠ .issue c) ∧ x ≠ .reset)
    (hp : s.port = between ++ .hostStatus :: rest) :
    ∃ u, Sys2Proof.core.run (between.length + 1) s = .next u ∧ u.reply = .code s.status ∧ u.port = rest := by
  induction between generalizing s with
  | nil => exact ⟨_, run_succ_of_step 0 (step_hostStatus hp), rfl, rfl⟩
  | cons x xs ih =>
    obtain ⟨⟨hissue, hreset⟩, hxs⟩ := List.forall_mem_cons.mp hquiet
    obtain ⟨t, hstep, hport, hstatus⟩ := step_keeps_status hp hissue hreset
    rw [List.length_cons, run_succ_of_step _ hstep, ← hstatus]
    exact ih hxs hport

end HostStatus

/-- Settles O13: the `Issue` leaves in `STATUS` the code it returns, and what stands between leaves `STATUS`, by
induction on it. -/
theorem hostStatusReturnsStatus : Obligations.HostStatusReturnsStatus := by
  refine ⟨fun s rest hp => step_hostStatus hp, fun s c between rest hquiet hret hp => ?_⟩
  obtain ⟨t, ht⟩ := step_returns hret
  have hissue : issueCommand c { s with port := between ++ .hostStatus :: rest } = .next t :=
    (step_issue hp).symm.trans ht
  obtain ⟨hreply, hport, -⟩ := issueCommand_next hissue
  obtain ⟨u, hrun, hu, hrest⟩ := run_hostStatus hquiet hport
  exact ⟨t, u, ht, hreply, hrun, hu.trans hreply.symm, hrest⟩

/-! ### Byte images (R47) -/

/-- Byte `i` of the `n` bytes of a bit string holds its bits from `8 * n - 8 - 8 * i` up. -/
theorem getElem?_bytesBE_toNat {w : Nat} (n : Nat) (c : BitVec w) {i : Nat} (hi : i < n) :
    (bytesBE n c.toNat)[i]? = some (c.extractLsb' (8 * n - 8 - 8 * i) 8) := by
  have hlow : 8 * (n - 1 - i) = 8 * n - 8 - 8 * i := by omega
  rw [getElem?_bytesBE _ _ _ hi, hlow]
  rfl

/-- Reading the `n` lowest bytes of `v` behind a number shifts the number up by them. -/
theorem foldl_bytesBE (n v acc : Nat) :
    (bytesBE n v).foldl (fun acc b => acc * 256 + b.toNat) acc = acc * 256 ^ n + v % 256 ^ n := by
  induction n generalizing acc with
  | zero => simp [bytesBE, Nat.mod_one]
  | succ n ih =>
    have hbyte : (BitVec.ofNat 8 (v >>> (8 * n))).toNat = v / 256 ^ n % 256 := by
      rw [BitVec.toNat_ofNat, Nat.shiftRight_eq_div_pow, Nat.pow_mul]
    rw [bytesBE_succ, List.foldl_cons, ih, hbyte, Nat.mod_pow_succ (x := v)]
    ring

theorem natOfBytesBE_bytesBE (n v : Nat) : natOfBytesBE (bytesBE n v) = v % 256 ^ n := by
  rw [natOfBytesBE, foldl_bytesBE, Nat.zero_mul, Nat.zero_add]

theorem length_bytesOfWord (b : Word) : (bytesOfWord b).length = 32 := length_bytesBE 32 _

theorem wordOfBytes_bytesOfWord (b : Word) : wordOfBytes (bytesOfWord b) = some b := by
  have hlt : b.toNat < 256 ^ 32 := b.isLt
  rw [wordOfBytes, if_pos (length_bytesOfWord b), bytesOfWord, natOfBytesBE_bytesBE, Nat.mod_eq_of_lt hlt,
    BitVec.ofNat_toNat, BitVec.setWidth_eq]

/-- The first byte of a negative word has its top bit set (R47, log entry 12). -/
theorem bytesOfWord_of_neg {b : Word} (h : b.toInt < 0) : ∃ x rest, bytesOfWord b = x :: rest ∧ 0x80#8 ≤ x := by
  refine ⟨_, _, bytesBE_succ 31 b.toNat, ?_⟩
  have hneg : 2 ^ 256 ≤ 2 * b.toNat := BitVec.toInt_neg_iff.mp h
  have hlt : b.toNat < 2 ^ 256 := b.isLt
  rw [BitVec.le_def, BitVec.toNat_ofNat, BitVec.toNat_ofNat, Nat.shiftRight_eq_div_pow]
  omega

/-- Settles O57: a byte of `bytesBE` is eight bits of the string, and the bytes read as the number they were made of. -/
theorem wordBytesAreBigEndian : Obligations.WordBytesAreBigEndian :=
  ⟨fun c => ⟨length_bytesBE 4 _, fun _ hi => getElem?_bytesBE_toNat 4 c hi⟩,
    fun b => ⟨length_bytesOfWord b, fun _ hi => getElem?_bytesBE_toNat 32 b hi, wordOfBytes_bytesOfWord b,
      bytesOfWord_of_neg⟩⟩

/-! ### The vector files (R48) -/

section Chunks
variable {α β : Type} {f : α → List β} {k : Nat}

theorem length_flatMap_of_chunks (hf : ∀ a, (f a).length = k) (l : List α) : (l.flatMap f).length = k * l.length := by
  simp [List.length_flatMap, hf, Nat.mul_comm]

/-- Behind `i` chunks of one length stand the chunks of the other elements. -/
theorem drop_flatMap_of_chunks (hf : ∀ a, (f a).length = k) (l : List α) (i : Nat) :
    (l.flatMap f).drop (k * i) = (l.drop i).flatMap f := by
  induction i generalizing l with
  | zero => rfl
  | succ i ih =>
    cases l with
    | nil => simp
    | cons a l =>
      have hskip : k * (i + 1) = (f a).length + k * i := by rw [hf]; ring
      rw [List.flatMap_cons, hskip, List.drop_length_add_append, ih, List.drop_succ_cons]

/-- Element `i` of a list stands `i` chunks from the start. -/
theorem drop_flatMap_of_getElem? (hf : ∀ a, (f a).length = k) {l : List α} {i : Nat} {a : α} (h : l[i]? = some a) :
    (l.flatMap f).drop (k * i) = f a ++ (l.drop (i + 1)).flatMap f := by
  obtain ⟨hi, rfl⟩ := List.getElem?_eq_some_iff.mp h
  rw [drop_flatMap_of_chunks hf, List.drop_eq_getElem_cons hi, List.flatMap_cons]

end Chunks

section VectorFiles
variable (rs : List Word) (ts : List InputTriple)

theorem length_bytesOfOutput : (bytesOfOutput rs).length = 32 * rs.length :=
  length_flatMap_of_chunks length_bytesOfWord rs

variable {rs} in
theorem bytesOfOutput_at {i : Nat} {b : Word} (h : rs[i]? = some b) :
    ((bytesOfOutput rs).drop (32 * i)).take 32 = bytesOfWord b := by
  rw [bytesOfOutput, drop_flatMap_of_getElem? length_bytesOfWord h, List.take_left' (length_bytesOfWord b)]

theorem wordsOfFile_bytesOfOutput : wordsOfFile rs.length (bytesOfOutput rs) = some rs := by
  induction rs with
  | nil => rfl
  | cons b rs ih =>
    have htake : (bytesOfOutput (b :: rs)).take 32 = bytesOfWord b := List.take_left' (length_bytesOfWord b)
    have hdrop : (bytesOfOutput (b :: rs)).drop 32 = bytesOfOutput rs := List.drop_left' (length_bytesOfWord b)
    rw [List.length_cons, wordsOfFile, htake, hdrop, wordOfBytes_bytesOfWord, ih]

/-- The three words of an element of an `input` file, in their order (R48). -/
def InputTriple.words (e : InputTriple) : List Word := [e.x, e.mu, e.sigma]

theorem InputTriple.length_words (e : InputTriple) : e.words.length = 3 := rfl

/-- An `input` file is the file of its triples' words. -/
theorem bytesOfInput_eq : bytesOfInput ts = bytesOfOutput (ts.flatMap InputTriple.words) := by
  simp [bytesOfInput, bytesOfOutput, List.flatMap_assoc, InputTriple.words]

theorem length_flatMap_words : (ts.flatMap InputTriple.words).length = 3 * ts.length :=
  length_flatMap_of_chunks InputTriple.length_words ts

variable {ts} in
/-- The `j`-th word of triple `i` is word `3 * i + j` of the file. -/
theorem words_at {i j : Nat} {e : InputTriple} {b : Word} (h : ts[i]? = some e) (hb : e.words[j]? = some b) :
    (ts.flatMap InputTriple.words)[3 * i + j]? = some b := by
  obtain ⟨hj, -⟩ := List.getElem?_eq_some_iff.mp hb
  rw [← List.getElem?_drop, drop_flatMap_of_getElem? InputTriple.length_words h, List.getElem?_append_left hj, hb]

variable {ts} in
theorem bytesOfInput_at {i j : Nat} {e : InputTriple} {b : Word} (h : ts[i]? = some e) (hb : e.words[j]? = some b) :
    ((bytesOfInput ts).drop (96 * i + 32 * j)).take 32 = bytesOfWord b := by
  have hoffset : 96 * i + 32 * j = 32 * (3 * i + j) := by ring
  rw [bytesOfInput_eq, hoffset, bytesOfOutput_at (words_at h hb)]

theorem triplesOfWords_words : triplesOfWords (ts.flatMap InputTriple.words) = some ts := by
  induction ts with
  | nil => rfl
  | cons e ts ih => simp [InputTriple.words, triplesOfWords, ih]

theorem inputOfBytes_bytesOfInput : inputOfBytes ts.length (bytesOfInput ts) = some ts := by
  rw [inputOfBytes, bytesOfInput_eq, ← length_flatMap_words, wordsOfFile_bytesOfOutput]
  exact triplesOfWords_words ts

end VectorFiles

/-- Settles O58: an `output` file is a run of 32-byte chunks, and an `input` file is the `output` file of its triples'
words. -/
theorem vectorFilesLayout : Obligations.VectorFilesLayout := by
  refine ⟨fun ts => ⟨?_, fun i e h => ?_, inputOfBytes_bytesOfInput ts⟩,
    fun rs => ⟨length_bytesOfOutput rs, fun _ _ h => bytesOfOutput_at h, wordsOfFile_bytesOfOutput rs⟩⟩
  · rw [bytesOfInput_eq, length_bytesOfOutput, length_flatMap_words]
    omega
  · exact ⟨bytesOfInput_at (j := 0) h rfl, bytesOfInput_at (j := 1) h rfl, bytesOfInput_at (j := 2) h rfl⟩

/-! ### A harness element (R48, R182, R183) -/

/-- With the default configuration `F_cdf` on valid operands answers half of what `F_erfc` does, which lies in
[0, 2*WAD] (R133, R135). -/
theorem F_cdf_default_value {x mu sigma : Int} (h : CdfValid x mu sigma) :
    ∃ e, F_erfc Config.default (cdfArgumentValue Config.default x mu sigma) = .ok e ∧ 0 ≤ e ∧ e ≤ TWO_WAD
      ∧ F_cdf Config.default x mu sigma = .ok (Int.tdiv e 2) := by
  obtain ⟨e, he, he0, he1⟩ := F_erfc_default_range (cdfArgumentValue Config.default x mu sigma)
  exact ⟨e, he, he0, he1, by rw [F_cdf_valid (by decide) h, he, bind_ok, rescale_value he0 he1]⟩

/-- `CDF` on valid operands completes with `0x00` and the value of `F_cdf` in its destination, and leaves no mark if
its sources hold values (R137, R182). -/
theorem exec_cdf_default {s : State} {rd ra rb rc : Reg} (hcfg : s.cfg = Config.default)
    (hheld : ∀ r ∈ [ra, rb, rc], s.holds r = true) (hvalid : CdfValid (s.operand ra) (s.operand rb) (s.operand rc)) :
    ∃ t v, exec (.cdf rd ra rb rc) s = .next t ∧ s.CompletedOk t rd v
      ∧ F_cdf Config.default (s.operand ra) (s.operand rb) (s.operand rc) = .ok v ∧ t.readUnheld = s.readUnheld := by
  obtain ⟨e, -, -, -, hvalue⟩ := F_cdf_default_value hvalid
  have hout : outcome s (.cdf rd ra rb rc) = .ok (Int.tdiv e 2) := by rw [outcome, cfgNow_of_default hcfg, hvalue]
  obtain ⟨t, ht, hok⟩ := command_completedOk (s := s) (rd := rd) (srcs := [ra, rb, rc]) hout (F_cdf_fits hvalue)
  obtain ⟨-, -, -, hmark, -⟩ := command_spec ht
  exact ⟨t, _, (exec_eq _ s).trans ht, hok, hvalue, by rw [hmark, noteReads_of_holds s _ hheld]⟩

/-- Settles O59: the three writes put the operands in the command's sources, the command puts the value in `w0`, and
the read returns it. -/
theorem harnessElementReadsCdf : Obligations.HarnessElementReadsCdf := by
  intro s e rest hcfg hvalid hp
  obtain ⟨s₁, h₁, hx, hxheld, -, -, -, hmark₁, hcfg₁, hp₁, -⟩ := hostWriteSetsOneRegister s 1 e.x _ hp
  obtain ⟨s₂, h₂, hmu, hmuheld, hkeep₂, -, -, hmark₂, hcfg₂, hp₂, -⟩ := hostWriteSetsOneRegister s₁ 2 e.mu _ hp₁
  obtain ⟨s₃, h₃, hsigma, hsigmaheld, hkeep₃, -, -, hmark₃, hcfg₃, hp₃, -⟩ :=
    hostWriteSetsOneRegister s₂ 3 e.sigma _ hp₂
  obtain ⟨hx₂, hxheld₂⟩ := hkeep₂ 1 (by decide)
  obtain ⟨hx₃, hxheld₃⟩ := hkeep₃ 1 (by decide)
  obtain ⟨hmu₃, hmuheld₃⟩ := hkeep₃ 2 (by decide)
  rw [← hx, ← hx₂, ← hx₃, ← hmu, ← hmu₃, ← hsigma] at hvalid ⊢
  have hheld : ∀ r ∈ ([1, 2, 3] : List Reg), s₃.held[r] = true := by
    simp only [List.forall_mem_cons]
    exact ⟨hxheld₃.trans (hxheld₂.trans hxheld), hmuheld₃.trans hmuheld, hsigmaheld, by simp⟩
  have hcfg' : s₃.cfg = Config.default := by rw [hcfg₃, hcfg₂, hcfg₁, hcfg]
  obtain ⟨s₄, v, hexec, hok, hvalue, hmark₄⟩ := exec_cdf_default (s := { s₃ with port := .hostRead 0 :: rest }) (rd := 0)
    hcfg' hheld hvalid
  have h₄ : step s₃ = .next s₄ := (stepRunsDecodedCommand s₃ _ _ _ hp₃ (decode_encode _)).trans hexec
  have hrun := run_succ_of_step 0 (step_hostRead_eq hok.port)
  rw [← run_succ_of_step 1 h₄, ← run_succ_of_step 2 h₃, ← run_succ_of_step 3 h₂, ← run_succ_of_step 4 h₁] at hrun
  have hdest : s₄.held[(0 : Reg)] = true := hok.destHeld
  refine ⟨_, s₄.w[(0 : Reg)], hrun, rfl, by rw [hok.dest]; exact hvalue, hok.status, rfl, ?_⟩
  simp only [hdest, hmark₄, hmark₃, hmark₂, hmark₁, Bool.not_true, Bool.or_false]

end Sys2Proof.Machine
end

section
/-! PROOFS. Proofs/Encoding.lean: the statements on the encoding (spec 30_encoding.md): the rows of the opcode map and
their words (R61 to R64, R67, R68), the illegal words (R66, R155), what every command leaves unchanged (R65, R153,
R154), and `EXPW` (R105). -/

namespace Sys2Proof

/-! ### The word of a command as a formula and as bytes (R47, R68) -/

/-- Placing fields one behind the other is shifting them and joining their bits (R68). -/
theorem r4Word_toNat (k : BitVec 8) (d a b c : Reg) :
    (r4Word k d a b c).toNat = k.toNat <<< 24 ||| d.val <<< 21 ||| a.val <<< 18 ||| b.val <<< 15 ||| c.val <<< 12 := by
  have happend : (k ++ BitVec.ofFin (w := 3) d ++ BitVec.ofFin (w := 3) a ++ BitVec.ofFin (w := 3) b
      ++ BitVec.ofFin (w := 3) c ++ 0#12).toNat
        = ((((k.toNat <<< 3 ||| d.val) <<< 3 ||| a.val) <<< 3 ||| b.val) <<< 3 ||| c.val) <<< 12 := by
    simp only [BitVec.toNat_append, BitVec.toNat_ofFin, BitVec.toNat_zero, Nat.or_zero]
  refine happend.trans ?_
  simp only [Nat.shiftLeft_or_distrib, ← Nat.shiftLeft_add]

/-- The word of format `R4` by the shift formula (R68). -/
theorem r4Word_eq_shifts (k : BitVec 8) (d a b c : Reg) :
    r4Word k d a b c =
      BitVec.ofNat 32 (k.toNat <<< 24 ||| d.val <<< 21 ||| a.val <<< 18 ||| b.val <<< 15 ||| c.val <<< 12) := by
  rw [← r4Word_toNat, BitVec.ofNat_toNat, BitVec.setWidth_eq]

/-- Settles O4: each command's word is `r4Word` of its opcode and its registers. -/
theorem encodeIsShiftFormula : Obligations.EncodeIsShiftFormula :=
  fun _ _ _ _ => ⟨r4Word_eq_shifts .., r4Word_eq_shifts .., r4Word_eq_shifts .., r4Word_eq_shifts ..,
    r4Word_eq_shifts .., r4Word_eq_shifts .., r4Word_eq_shifts .., r4Word_eq_shifts ..⟩

/-- The four bytes of a word decode as the word (R47, R64). -/
theorem decodeBytes_bytesOfCommand (c : CommandWord) : decodeBytes (bytesOfCommand c) = (decode c, []) := by
  have hword : BitVec.ofNat 32 (natOfBytesBE (bytesOfCommand c)) = c := by
    have hlt : c.toNat < 256 ^ 4 := c.isLt
    rw [bytesOfCommand, Machine.natOfBytesBE_bytesBE, Nat.mod_eq_of_lt hlt, BitVec.ofNat_toNat, BitVec.setWidth_eq]
  have hbytes : decodeBytes (bytesOfCommand c) = (decode (BitVec.ofNat 32 (natOfBytesBE (bytesOfCommand c))), []) := rfl
  rw [hbytes, hword]

/-- Settles O2: the table's numbering and the bytes give the word back, and the word decodes to the command. -/
theorem decodeOfEncode : Obligations.DecodeOfEncode := by
  refine fun i => ⟨decode_encode i, ?_⟩
  rw [decodeTableWord, tableWord_toNat, decodeBytes_bytesOfCommand, decode_encode, Decoded.instr?]

/-! ### The rows of the opcode map (R64, R67) -/

/-- The word matches row `j` (R64). -/
def RowMatches (c : CommandWord) (j : Fin 8) : Prop := c &&& opcodeTable[j].mask = opcodeTable[j].matchBits

/-- The command that row `j` reads from the register fields of a word (R64, R67). -/
def rowCommand (c : CommandWord) (j : Fin 8) : Instr :=
  opcodeTable[j].build (regField c 21) (regField c 18) (regField c 15) (regField c 12)

section Rows
variable {c : CommandWord}

/-- A word whose bits 11:0 are zero is the word of its opcode and its register fields (R61). -/
theorem r4Word_regFields (hz : (R4.ofWord c).zero = 0#12) :
    r4Word (R4.ofWord c).opcode (regField c 21) (regField c 18) (regField c 15) (regField c 12) = c := by
  have hfields : (R4.ofWord c).toWord =
      r4Word (R4.ofWord c).opcode (regField c 21) (regField c 18) (regField c 15) (regField c 12) := by
    rw [R4.toWord, hz]
    rfl
  rw [← hfields, toWord_ofWord]

theorem r4Word_of_matches_three {k : BitVec 8} (h : c &&& 0xFF000FFF#32 = R4.toWord ⟨k, 0, 0, 0, 0, 0⟩) :
    r4Word k (regField c 21) (regField c 18) (regField c 15) (regField c 12) = c := by
  obtain ⟨rfl, hz⟩ := (matches_three c k).mp h
  exact r4Word_regFields hz

theorem r4Word_of_matches_two {k : BitVec 8} (h : c &&& 0xFF007FFF#32 = R4.toWord ⟨k, 0, 0, 0, 0, 0⟩) :
    r4Word k (regField c 21) (regField c 18) (regField c 15) 0 = c := by
  obtain ⟨rfl, hrc, hz⟩ := (matches_two c k).mp h
  have hc : regField c 12 = 0 := congrArg BitVec.toFin hrc
  simpa only [hc] using r4Word_regFields hz

theorem r4Word_of_matches_one {k : BitVec 8} (h : c &&& 0xFF03FFFF#32 = R4.toWord ⟨k, 0, 0, 0, 0, 0⟩) :
    r4Word k (regField c 21) (regField c 18) 0 0 = c := by
  obtain ⟨rfl, hrb, hrc, hz⟩ := (matches_one c k).mp h
  have hb : regField c 15 = 0 := congrArg BitVec.toFin hrb
  have hc : regField c 12 = 0 := congrArg BitVec.toFin hrc
  simpa only [hb, hc] using r4Word_regFields hz

/-- A word that matches a row is the word of the row's command (R64, R66). -/
theorem encode_of_rowMatches : {j : Fin 8} → RowMatches c j → encode (rowCommand c j) = c
  | 0, h => r4Word_of_matches_two (k := 1#8) h
  | 1, h => r4Word_of_matches_two (k := 2#8) h
  | 2, h => r4Word_of_matches_three (k := 3#8) h
  | 3, h => r4Word_of_matches_one (k := 4#8) h
  | 4, h => r4Word_of_matches_one (k := 5#8) h
  | 5, h => r4Word_of_matches_one (k := 6#8) h
  | 6, h => r4Word_of_matches_one (k := 7#8) h
  | 7, h => r4Word_of_matches_three (k := 8#8) h

/-- A word that matches a row decodes to the row's command (R64). -/
theorem decode_of_rowMatches {j : Fin 8} (h : RowMatches c j) : decode c = .command (rowCommand c j) := by
  rw [← decode_encode (rowCommand c j), encode_of_rowMatches h]

/-- A word decodes to a command only through a row it matches (R64). -/
theorem rowMatches_of_decode {i : Instr} (h : decode c = .command i) : ∃ j, RowMatches c j ∧ i = rowCommand c j := by
  unfold decode at h
  split at h
  next row hfind =>
    have hrow : row.matches c = true := List.find?_some (p := fun r : OpcodeRow => r.matches c) hfind
    obtain ⟨j, rfl⟩ := List.mem_iff_get.mp (List.mem_of_find?_eq_some hfind)
    exact ⟨j, beq_iff_eq.mp hrow, (Decoded.command.inj h).symm⟩
  next => cases h

/-- The masks keep all eight bits of the opcode, so a word that matches a row has the row's (R67). -/
theorem opcode_of_rowMatches {j : Fin 8} (h : RowMatches c j) :
    c.extractLsb' 24 8 = opcodeTable[j].matchBits.extractLsb' 24 8 := by
  have hmask : ∀ j : Fin 8, opcodeTable[j].mask.extractLsb' 24 8 = 0xFF#8 := by decide
  rw [← h, BitVec.extractLsb'_and, hmask, and_ones8]

/-- The rows have different opcodes, so a word matches at most one (R64). -/
theorem row_unique {j l : Fin 8} (hj : RowMatches c j) (hl : RowMatches c l) : j = l := by
  have hopcode : ∀ j l : Fin 8,
      opcodeTable[j].matchBits.extractLsb' 24 8 = opcodeTable[l].matchBits.extractLsb' 24 8 → j = l := by decide
  exact hopcode j l ((opcode_of_rowMatches hj).symm.trans (opcode_of_rowMatches hl))

theorem instr?_eq_none_iff : (decode c).instr? = none ↔ ¬∃ i, decode c = .command i := by
  cases decode c <;> simp [Decoded.instr?]

end Rows

/-- Settles O3: the word matches a row, and is the word of that row's command. -/
theorem encodeOfDecode : Obligations.EncodeOfDecode := by
  intro c i h
  obtain ⟨j, hrow, rfl⟩ := rowMatches_of_decode h
  exact encode_of_rowMatches hrow

/-- Settles O5: rows are told apart by their opcodes, and a word decodes by the row it matches. -/
theorem decodeFollowsOpcodeRows : Obligations.DecodeFollowsOpcodeRows := by
  refine fun c => ⟨fun _ _ hi hj => row_unique hi hj, fun _ hi => decode_of_rowMatches hi, fun hnone => ?_⟩
  rw [instr?_eq_none_iff]
  rintro ⟨i, hdecode⟩
  obtain ⟨j, hrow, -⟩ := rowMatches_of_decode hdecode
  exact hnone j hrow

/-- Settles O1: the legal words are the encodings of their commands, and the others are run. -/
theorem specWordsDecode : Obligations.SpecWordsDecode :=
  ⟨decode_encode (.cdf 0 1 2 3), decode_encode (.mulwad 0 1 2), decode_encode (.divwad 0 1 2),
    decode_encode (.muldiv 0 1 2 3), decode_encode (.abs 0 1), decode_encode (.expw 0 1), decode_encode (.poly 0 1),
    decode_encode (.erfc 0 1), decode_encode (.muldiv 5 2 3 4), by decide, by decide, by decide, by decide, by decide⟩

/-! ### Well-formed words (R62, R66) -/

/-- The opcodes of the commands are `0x01` to `0x08` (R67). -/
theorem opcode_cases {o : BitVec 8} (h : 0x01#8 ≤ o ∧ o ≤ 0x08#8) :
    o = 1#8 ∨ o = 2#8 ∨ o = 3#8 ∨ o = 4#8 ∨ o = 5#8 ∨ o = 6#8 ∨ o = 7#8 ∨ o = 8#8 := by
  obtain ⟨h1, h8⟩ := h
  bv_omega

/-- The four checks of R66 as conditions on the opcode. -/
theorem wellFormed_iff (f : R4) :
    f.wellFormed = true ↔ (0x01#8 ≤ f.opcode ∧ f.opcode ≤ 0x08#8) ∧ f.zero = 0#12
      ∧ (0x04#8 ≤ f.opcode ∧ f.opcode ≤ 0x07#8 → f.rb = 0#3 ∧ f.rc = 0#3)
      ∧ (f.opcode = 0x01#8 ∨ f.opcode = 0x02#8 → f.rc = 0#3) := by
  by_cases hop : 0x01#8 ≤ f.opcode ∧ f.opcode ≤ 0x08#8
  · rcases opcode_cases hop with h | h | h | h | h | h | h | h <;>
      simp [R4.wellFormed, R4.opcodeOk, R4.zeroOk, R4.rbOk, R4.rcOk, R4.sourceCount, h, and_assoc]
  · simp only [R4.wellFormed, R4.opcodeOk, Bool.and_eq_true, decide_eq_true_eq, hop, false_and]

/-- A word with well-formed fields matches the row of its opcode (R66, R67). -/
theorem rowMatches_of_wellFormed {c : CommandWord} (h : (R4.ofWord c).wellFormed = true) : ∃ j, RowMatches c j := by
  obtain ⟨hop, hzero, hone, htwo⟩ := (wellFormed_iff _).mp h
  have hmatch (k : BitVec 8) (hk : (R4.ofWord c).opcode = k) (hrange : 0x04#8 ≤ k ∧ k ≤ 0x07#8) :
      c &&& 0xFF03FFFF#32 = R4.toWord ⟨k, 0, 0, 0, 0, 0⟩ := by
    obtain ⟨hrb, hrc⟩ := hone (hk ▸ hrange)
    exact (matches_one c k).mpr ⟨hk, hrb, hrc, hzero⟩
  rcases opcode_cases hop with hk | hk | hk | hk | hk | hk | hk | hk
  · exact ⟨0, (matches_two c 1#8).mpr ⟨hk, htwo (.inl hk), hzero⟩⟩
  · exact ⟨1, (matches_two c 2#8).mpr ⟨hk, htwo (.inr hk), hzero⟩⟩
  · exact ⟨2, (matches_three c 3#8).mpr ⟨hk, hzero⟩⟩
  · exact ⟨3, hmatch 4#8 hk (by decide)⟩
  · exact ⟨4, hmatch 5#8 hk (by decide)⟩
  · exact ⟨5, hmatch 6#8 hk (by decide)⟩
  · exact ⟨6, hmatch 7#8 hk (by decide)⟩
  · exact ⟨7, (matches_three c 8#8).mpr ⟨hk, hzero⟩⟩

/-- The word of every command has well-formed fields. -/
theorem wellFormed_encode (i : Instr) : (R4.ofWord (encode i)).wellFormed = true := by
  cases i with
  | mulwad => exact Laws.EncodeWellFormed.mulwad ..
  | divwad => exact Laws.EncodeWellFormed.divwad ..
  | muldiv => exact Laws.EncodeWellFormed.muldiv ..
  | abs => exact Laws.EncodeWellFormed.abs ..
  | expw => exact Laws.EncodeWellFormed.expw ..
  | poly => exact Laws.EncodeWellFormed.poly ..
  | erfc => exact Laws.EncodeWellFormed.erfc ..
  | cdf => exact Laws.EncodeWellFormed.cdf ..

/-- Settles O8: a legal word is the word of a command, whose fields are well formed, and a word with well-formed fields
matches the row of its opcode. -/
theorem decodeAcceptsWellFormedFields : Obligations.DecodeAcceptsWellFormedFields := by
  refine fun c => ⟨fun ⟨i, hi⟩ => ?_, fun hwf => ?_⟩
  · rw [← encodeOfDecode c i hi]
    exact wellFormed_encode i
  · obtain ⟨j, hrow⟩ := rowMatches_of_wellFormed hwf
    exact ⟨_, decode_of_rowMatches hrow⟩

/-! ### Illegal words (R66, R155) -/

/-- Bits 17:12 are zero exactly if `rb` and `rc` are (R61). -/
theorem extract_rb_rc_eq_zero_iff (c : CommandWord) :
    c.extractLsb' 12 6 = 0#6 ↔ (R4.ofWord c).rb = 0#3 ∧ (R4.ofWord c).rc = 0#3 := by
  have happend : ∀ x y : BitVec 3, x ++ y = 0#6 ↔ x = 0#3 ∧ y = 0#3 := by decide
  have hsplit : c.extractLsb' 12 6 = (R4.ofWord c).rb ++ (R4.ofWord c).rc :=
    (BitVec.extractLsb'_append_extractLsb'_eq_extractLsb' (x := c) (len₁ := 3) (len₂ := 3) rfl).symm
  rw [hsplit, happend]

/-- The conditions of R66 under which a word is illegal. -/
theorem instr?_none_iff_fields (c : CommandWord) :
    (decode c).instr? = none ↔
      c.extractLsb' 24 8 = 0x00#8 ∨ 0x09#8 ≤ c.extractLsb' 24 8 ∨ c.extractLsb' 0 12 ≠ 0#12
      ∨ (0x04#8 ≤ c.extractLsb' 24 8 ∧ c.extractLsb' 24 8 ≤ 0x07#8 ∧ c.extractLsb' 12 6 ≠ 0#6)
      ∨ ((c.extractLsb' 24 8 = 0x01#8 ∨ c.extractLsb' 24 8 = 0x02#8) ∧ c.extractLsb' 12 3 ≠ 0#3) := by
  have hrange (o : BitVec 8) : (0x01#8 ≤ o ∧ o ≤ 0x08#8) ↔ ¬(o = 0x00#8 ∨ 0x09#8 ≤ o) := by bv_omega
  rw [instr?_eq_none_iff, decodeAcceptsWellFormedFields c, wellFormed_iff, ← extract_rb_rc_eq_zero_iff, hrange]
  simp only [R4.ofWord]
  tauto

end Sys2Proof

namespace Sys2Proof.Machine

/-- Issuing an illegal word completes with `0x07` and assigns nothing else but the ghost bit (R155, R158). -/
theorem step_issue_illegal {s : State} {c : CommandWord} {rest : List Transaction} (hp : s.port = .issue c :: rest)
    (h : (decode c).instr? = none) :
    step s = .next { s with port := rest, status := 0x07#8, reply := .code 0x07#8, faulted := true } := by
  match hd : decode c with
  | .command i => simp [hd, Decoded.instr?] at h
  | .illegal r =>
    have hfaulted : (s.faulted || codeIllegalCommand != codeOk) = true := Bool.or_true _
    rw [step_issue hp, issueCommand_of_illegal hd, State.complete, hfaulted]
    rfl

/-- Settles O6: a word is illegal exactly if its fields are not well formed, and `issueCommand` treats all such words
alike. -/
theorem illegalWords : Obligations.IllegalWords :=
  fun c => ⟨instr?_none_iff_fields c, fun h _ _ hp => step_issue_illegal hp h⟩

end Sys2Proof.Machine

namespace Sys2Proof

/-! ### The number of legal words (R67) -/

/-- The register fields of the commands, by the number of sources: four commands with one source, two with two and two
with three (R67). -/
abbrev CommandFields := (Fin 4 × Reg × Reg) ⊕ (Fin 2 × Reg × Reg × Reg) ⊕ (Fin 2 × Reg × Reg × Reg × Reg)

/-- The fields of a command. -/
def Instr.fields : Instr → CommandFields
  | .abs rd ra => .inl (0, rd, ra)
  | .expw rd ra => .inl (1, rd, ra)
  | .poly rd ra => .inl (2, rd, ra)
  | .erfc rd ra => .inl (3, rd, ra)
  | .mulwad rd ra rb => .inr (.inl (0, rd, ra, rb))
  | .divwad rd ra rb => .inr (.inl (1, rd, ra, rb))
  | .muldiv rd ra rb rc => .inr (.inr (0, rd, ra, rb, rc))
  | .cdf rd ra rb rc => .inr (.inr (1, rd, ra, rb, rc))

/-- The command of given fields. -/
def instrOfFields : CommandFields → Instr
  | .inl (0, rd, ra) => .abs rd ra
  | .inl (1, rd, ra) => .expw rd ra
  | .inl (2, rd, ra) => .poly rd ra
  | .inl (3, rd, ra) => .erfc rd ra
  | .inr (.inl (0, rd, ra, rb)) => .mulwad rd ra rb
  | .inr (.inl (1, rd, ra, rb)) => .divwad rd ra rb
  | .inr (.inr (0, rd, ra, rb, rc)) => .muldiv rd ra rb rc
  | .inr (.inr (1, rd, ra, rb, rc)) => .cdf rd ra rb rc

theorem instrOfFields_fields (i : Instr) : instrOfFields i.fields = i := by cases i <;> rfl

theorem instrOfFields_injective : Function.Injective instrOfFields := by
  have hleft : Function.LeftInverse Instr.fields instrOfFields := by
    rintro (⟨k, _⟩ | ⟨k, _⟩ | ⟨k, _⟩) <;> fin_cases k <;> rfl
  exact hleft.injective

theorem card_commandFields : Fintype.card CommandFields = 9472 := by simp

theorem encode_injective : Function.Injective encode := fun i j h =>
  Decoded.command.inj (by rw [← decode_encode i, h, decode_encode])

/-- Settles O7: the words of all commands, which are as many as their register fields. -/
theorem legalWordCount : Obligations.LegalWordCount := by
  refine ⟨(Finset.univ : Finset CommandFields).toList.map (encode ∘ instrOfFields), ?_, ?_, fun c => ?_⟩
  · exact (Finset.nodup_toList _).map (encode_injective.comp instrOfFields_injective)
  · rw [List.length_map, Finset.length_toList, Finset.card_univ, card_commandFields]
  · simp only [List.mem_map, Finset.mem_toList, Finset.mem_univ, true_and, Function.comp_apply]
    constructor
    · rintro ⟨x, rfl⟩
      exact ⟨_, decode_encode _⟩
    · rintro ⟨i, hi⟩
      exact ⟨i.fields, by rw [instrOfFields_fields, encodeOfDecode c i hi]⟩

end Sys2Proof

namespace Sys2Proof.Machine

/-! ### What every command leaves unchanged (R65, R153, R154) -/

/-- Settles O25: every command is the common execution sequence on an outcome that returns. -/
theorem commandFrame : Obligations.CommandFrame := by
  intro i s hret
  obtain ⟨t, ht⟩ := command_returns s i.dest i.sources (outcome_returns hret)
  obtain ⟨-, hreply, hfaulted, -, hport, hcfg, hcount, -, hothers, -⟩ := command_spec ht
  refine ⟨t, (exec_eq i s).trans ht, hreply, hothers, ?_⟩
  rcases command_completes ht with ⟨hok, hheld⟩ | ⟨e, herr, hw, hheld⟩
  · have hclear : (t.status != codeOk) = false := bne_eq_false_iff_eq.mpr hok
    refine ⟨fun hne => absurd hok hne, fun _ => ⟨hheld, ?_⟩, hport, hcfg, hcount⟩
    rw [hfaulted, hclear, Bool.or_false]
  · have hne : t.status ≠ codeOk := herr ▸ code_ne_codeOk e
    refine ⟨fun _ => ⟨hw, hheld, ?_⟩, fun hok => absurd hok hne, hport, hcfg, hcount⟩
    rw [hfaulted, bne_iff_ne.mpr hne, Bool.or_true]

/-! ### EXPW (R105) -/

section Expw
variable {s t : State} {rd ra : Reg}

/-- `EXPW` completes with the value of the exponential, whatever it is (R105). -/
theorem expw_completedOk (h : exec (.expw rd ra) s = .next t) {v : Int}
    (hv : F_exp s.cfgNow s.w[ra].toInt = .ok v) : s.CompletedOk t rd v := by
  obtain ⟨t', ht', hok⟩ := command_completedOk (s := s) (rd := rd) (srcs := [ra]) hv
    ((fits_iff v).mpr (F_exp_range hv))
  rw [exec_eq] at h
  cases h.symm.trans ht'
  exact hok

/-- `EXPW` completes with the code of the exponential's error (R65, R105; log entry 11). -/
theorem expw_completedErr (h : exec (.expw rd ra) s = .next t) {e : FnError}
    (he : F_exp s.cfgNow s.w[ra].toInt = .err e) : s.CompletedErr t (code e) := by
  obtain ⟨t', ht', herr⟩ := command_completedErr (s := s) (rd := rd) (srcs := [ra]) he
  rw [exec_eq] at h
  cases h.symm.trans ht'
  exact herr

/-- With `EXPWAD_REF` a command meets that function, however often it has been used. -/
theorem F_exp_of_ref (h : s.cfg.expwad = .ref) (k : Int) : F_exp s.cfgNow k = expwadRef k := by
  have hnow : s.cfgNow.expwad = .ref := by rw [cfgNow_expwad, h]; rfl
  rw [F_exp, hnow]

end Expw

/-- Below the overflow threshold `EXPWAD_REF` answers a value that is not negative (R102, R106). -/
theorem expwadRef_nonneg {k : Int} (h : k < EXP_OVERFLOW_FROM) : ∃ v, 0 ≤ v ∧ expwadRef k = .ok v := by
  rcases le_or_gt k EXP_ZERO_FROM with hlow | hmid
  · exact ⟨0, le_rfl, expwadRef_low hlow⟩
  · obtain ⟨hv, hpos, -⟩ := expwadRef_mid hmid h
    exact ⟨_, by omega, hv⟩

/-- `EXPWAD_REF` at 1 is Euler's number (R105). -/
theorem expwadRef_wad : expwadRef 1000000000000000000 = .ok 2718281828459045235 := by decide +kernel

/-- Settles O39: `EXPW` matches one row, it completes as the exponential answers, and `EXPWAD_REF` answers by its
thresholds. -/
theorem expwWritesExponential : Obligations.ExpwWritesExponential := by
  refine ⟨fun c h => decode_of_rowMatches (j := 4) h, rfl, fun s rd ra => ?_⟩
  intro k hret
  obtain ⟨t, ht⟩ := command_returns s rd [ra] (outcome_returns hret)
  have hexec : exec (.expw rd ra) s = .next t := ht
  refine ⟨t, hexec, fun v hv => expw_completedOk hexec hv, fun e he => expw_completedErr hexec he,
    fun e he hlaw => ?_, fun href => ?_⟩
  · have hlawful : s.cfgNow.expwad.lawful = true := by rwa [cfgNow_expwad, lawful_after]
    cases F_exp_err hlawful he
    exact expw_completedErr hexec he
  · have hok {v : Int} (hv : expwadRef k = .ok v) : s.CompletedOk t rd v :=
      expw_completedOk hexec ((F_exp_of_ref href k).trans hv)
    refine ⟨fun hhigh => expw_completedErr hexec ((F_exp_of_ref href k).trans (expwadRef_high hhigh)), fun hlt => ?_,
      fun hlow => hok (expwadRef_low hlow), fun hzero => hok ?_, fun hone => hok ?_⟩
    · obtain ⟨v, hv0, hv⟩ := expwadRef_nonneg hlt
      exact ⟨v, hv0, hok hv⟩
    · rw [hzero, expwadRef_zero, WAD_eq]
    · rw [hone, expwadRef_wad]

end Sys2Proof.Machine
end

section
/-! PROOFS. Proofs/Arith.lean: the statements on checked arithmetic (spec 40_arith.md): the overflow test by division
(R87), and the encodings, values and errors of `MULWAD`, `DIVWAD`, `MULDIV` and `ABS` (R84, R86, R88, R91). -/

namespace Sys2Proof.Machine

/-! ### The functions, with the range check in the words of the statements (R82, R85, R89) -/

theorem fits_sval (b : Word) : Fits (sval b) := (fits_iff _).mpr ⟨MIN_le_sval b, sval_le_MAX b⟩

theorem F_muldiv_eq (a b d : Int) :
    F_muldiv a b d =
      if ¬Fits (a * b) then .err .arithmeticOverflow
      else if d = 0 then .err .divideByZero
      else if a * b = -2 ^ 255 ∧ d = -1 then .err .arithmeticOverflow
      else .ok (Int.tdiv (a * b) d) := by
  rw [F_muldiv_spec, MIN_eq, MAX_eq]

theorem F_muldiv_of_not_fits {a b : Int} (d : Int) (h : ¬Fits (a * b)) :
    F_muldiv a b d = .err .arithmeticOverflow := by
  rw [F_muldiv_eq, if_pos h]

theorem F_divwad_eq (x y : Int) :
    F_divwad x y =
      if ¬Fits (x * 10 ^ 18) then .err .arithmeticOverflow
      else if y = 0 then .err .divideByZero
      else .ok (Int.tdiv (x * 10 ^ 18) y) := by
  rw [F_divwad_spec, MIN_eq, MAX_eq, WAD_eq]

theorem F_abs_MIN : F_abs (-2 ^ 255) = .err .minValueUnrepresentable := by
  rw [← MIN_eq, F_abs, if_pos rfl]

theorem F_abs_eq_abs {x : Int} (h : x ≠ -2 ^ 255) : F_abs x = .ok |x| := by
  rw [F_abs_of_ne (MIN_eq ▸ h), Int.abs_eq_natAbs]

/-- The magnitude of a representable value other than MIN is representable (R90). -/
theorem abs_le_of_fits {x : Int} (hx : Fits x) (h : x ≠ -2 ^ 255) : |x| ≤ 2 ^ 255 - 1 := by
  obtain ⟨hlow, hhigh⟩ := hx
  exact abs_le.mpr ⟨by omega, hhigh⟩

/-- A word whose signed value is not negative reads the same unsigned (R90). -/
theorem toNat_eq_toInt_of_nonneg {b : Word} (h : 0 ≤ b.toInt) : (b.toNat : Int) = b.toInt := by
  rw [BitVec.toInt_eq_toNat_cond] at h ⊢
  split at h
  · rw [if_pos ‹_›]
  · have := b.isLt
    omega

/-! ### The overflow test by division (R87) -/

/-- The truncated product differs from the exact one by a multiple of 2^256 (R87). -/
theorem dvd_sval_word_sub (v : Int) : 2 ^ 256 ∣ sval (word v) - v := by
  rw [sval, word, BitVec.toInt_ofInt]
  exact_mod_cast Int.dvd_bmod_sub_self

/-- If the truncated product over `x` gives `y`, it is the exact product: the two differ by a multiple of 2^256 that is
smaller than `|x|` (R87). -/
theorem sval_word_of_tdiv_eq {x y : Int} (hx : Fits x) (h0 : x ≠ 0) (h : tdiv (sval (word (x * y))) x = y) :
    sval (word (x * y)) = x * y := by
  have hrem : |sval (word (x * y)) - x * y| < |x| := by
    simpa only [h] using abs_sub_mul_tdiv_lt (sval (word (x * y))) h0
  have habs : |x| < 2 ^ 256 := abs_lt.mpr (by omega)
  exact sub_eq_zero.mp (Int.eq_zero_of_abs_lt_dvd (dvd_sval_word_sub _) (hrem.trans habs))

/-- The product is representable exactly if the truncated product over `x` recovers `y` (R87). -/
theorem fits_mul_iff_tdiv_eq {x : Int} (y : Int) (hx : Fits x) (h0 : x ≠ 0) :
    Fits (x * y) ↔ tdiv (sval (word (x * y))) x = y := by
  constructor
  · intro hfits
    obtain ⟨hlow, hhigh⟩ := (fits_iff _).mp hfits
    rw [sval_word hlow hhigh, tdiv_eq_tdiv, Int.mul_tdiv_cancel_left y h0]
  · intro h
    rw [← sval_word_of_tdiv_eq hx h0 h]
    exact fits_sval _

/-- Settles O30: a truncated product from which `y` is recovered is the exact one, and 2^255, the exact product of the
excluded pair, does not fit. -/
theorem overflowTestByDivision : Obligations.OverflowTestByDivision :=
  ⟨fun _ y hx _ h0 _ => fits_mul_iff_tdiv_eq y hx h0, by decide, fun d =>
    ⟨F_muldiv_of_not_fits d (by decide), F_muldiv_of_not_fits d (by decide)⟩⟩

/-! ### The four commands (R84, R86, R88, R91) -/

section Commands
variable {s : State} {i : Instr}

/-- A command whose function gives a representable value completes with it (R65, R154). -/
theorem exec_completedOk {v : Int} (h : outcome s i = .ok v) (hv : Fits v) :
    ∃ t, exec i s = .next t ∧ s.CompletedOk t i.dest v := by
  rw [exec_eq]
  exact command_completedOk h hv

/-- A command whose function gives an error completes with the error's code (R65, R154). -/
theorem exec_completedErr {e : FnError} (h : outcome s i = .err e) :
    ∃ t, exec i s = .next t ∧ s.CompletedErr t (code e) := by
  rw [exec_eq]
  exact command_completedErr h

end Commands

/-- Settles O31: a word of the first row is `MULWAD`, whose outcome is that of `F_mulwad` on the two sources. -/
theorem mulwadWritesRescaledProduct : Obligations.MulwadWritesRescaledProduct := by
  refine ⟨fun c h => decode_of_rowMatches (j := 0) h, rfl, fun s rd ra rb => ?_⟩
  intro a b
  have hout : outcome s (.mulwad rd ra rb) = F_mulwad a b := rfl
  rw [F_mulwad_eq] at hout
  split_ifs at hout ⊢ with hfits
  · exact exec_completedOk hout (F_mulwad_fits hout)
  · exact exec_completedErr hout

/-- Settles O32: a word of the second row is `DIVWAD`, whose outcome is that of `F_divwad` on the two sources. -/
theorem divwadWritesRescaledQuotient : Obligations.DivwadWritesRescaledQuotient := by
  refine ⟨fun c h => decode_of_rowMatches (j := 1) h, rfl, fun s rd ra rb => ?_⟩
  intro a b
  have hout : outcome s (.divwad rd ra rb) = F_divwad a b := rfl
  rw [F_divwad_eq] at hout
  split_ifs at hout ⊢ with hfits hzero
  · exact exec_completedErr hout
  · exact exec_completedOk hout (F_muldiv_fits hout)
  · exact exec_completedErr hout

/-- Settles O33: a word of the third row is `MULDIV`, whose outcome is that of `F_muldiv` on the three sources. -/
theorem muldivWritesQuotient : Obligations.MuldivWritesQuotient := by
  refine ⟨fun c h => decode_of_rowMatches (j := 2) h, rfl, fun s rd ra rb rc => ?_⟩
  intro a b d
  have hout : outcome s (.muldiv rd ra rb rc) = F_muldiv a b d := rfl
  rw [F_muldiv_eq] at hout
  split_ifs at hout ⊢ with hfits hzero hmin
  · exact exec_completedErr hout
  · exact exec_completedErr hout
  · exact exec_completedOk hout (F_muldiv_fits hout)
  · exact exec_completedErr hout

/-- Settles O34: a word of the fourth row is `ABS`, whose outcome is that of `F_abs` on the source. -/
theorem absWritesMagnitude : Obligations.AbsWritesMagnitude := by
  refine ⟨fun c h => decode_of_rowMatches (j := 3) h, rfl, fun s rd ra => ?_⟩
  intro a
  split_ifs with hmin
  · have hout : outcome s (.abs rd ra) = .err .minValueUnrepresentable := (congrArg F_abs hmin).trans F_abs_MIN
    exact exec_completedErr hout
  · have hout : outcome s (.abs rd ra) = .ok |a| := F_abs_eq_abs hmin
    have hmax : |a| ≤ 2 ^ 255 - 1 := abs_le_of_fits (fits_sval _) hmin
    have hnonneg : 0 ≤ |a| := abs_nonneg a
    obtain ⟨t, ht, hok⟩ := exec_completedOk hout ⟨by omega, hmax⟩
    have hdest : t.w[rd].toInt = |a| := hok.dest
    exact ⟨t, ht, hok, hmax, (toNat_eq_toInt_of_nonneg (hdest ▸ hnonneg)).trans hdest⟩

end Sys2Proof.Machine
end

section
/-! PROOFS. Proofs/Exp.lean: the statements on the exponential (spec 41_exp.md): what R100 asks of every exponential,
`EXPWAD_REF` as the floor of the real one (R101), its thresholds and sample values (R102), and the named properties
(R106). -/

namespace Sys2Proof.Machine

/-! ### The contract of R100 -/

/-- A total exponential answers a representable value or an error (R100 (a), U5). -/
theorem F_exp_fits_or_err {c : Config} (hc : c.expwad.total = true) (k : Int) :
    (∃ v, F_exp c k = .ok v ∧ Fits v) ∨ ∃ e, F_exp c k = .err e := by
  match h : F_exp c k with
  | .ok v => exact .inl ⟨v, rfl, (fits_iff v).mpr (F_exp_range h)⟩
  | .err e => exact .inr ⟨e, rfl⟩
  | .noReturn => exact absurd h (F_exp_returns hc k)

/-- The answer depends on the exponential alone, not on the other parameters of the configuration (R100 (b)). -/
theorem F_exp_congr {c c' : Config} (h : c.expwad = c'.expwad) (k : Int) : F_exp c k = F_exp c' k := by
  rw [F_exp, F_exp, h]

/-- Settles O35: every call of a total exponential returns, a lawful one has only one error, and it stays the same one
from use to use. -/
theorem expwadMeetsContract : Obligations.ExpwadMeetsContract := by
  refine ⟨fun c k hlaw => ?_, fun s s' k hlaw heq => ?_, fun c k htotal => F_exp_fits_or_err htotal k⟩
  · rcases F_exp_fits_or_err (total_of_lawful hlaw) k with hok | ⟨e, he⟩
    · exact .inl hok
    · exact .inr (F_exp_err hlaw he ▸ he)
  · rw [cfgNow_of_lawful hlaw, cfgNow_of_lawful (heq ▸ hlaw)]
    exact F_exp_congr heq k

/-! ### The floor of `y` against the thresholds (R101, R102) -/

theorem floor_expReal_nonneg (k : Int) : 0 ≤ ⌊expReal k⌋ := Int.floor_nonneg.mpr (expReal_pos k).le

/-- The floor of `y` is 0 exactly up to the zero threshold (R102). -/
theorem floor_expReal_eq_zero_iff (k : Int) : ⌊expReal k⌋ = 0 ↔ k ≤ EXP_ZERO_FROM := by
  rw [Int.floor_eq_zero_iff]
  refine ⟨fun hunit => ?_, fun hlow => ⟨(expReal_pos k).le, expReal_lt_one hlow⟩⟩
  by_contra hmid
  exact (one_le_expReal (not_le.mp hmid)).not_gt hunit.2

/-- The floor of `y` exceeds MAX exactly from the overflow threshold on (R102). -/
theorem MAX_lt_floor_expReal_iff (k : Int) : MAX < ⌊expReal k⌋ ↔ EXP_OVERFLOW_FROM ≤ k := by
  constructor
  · intro hmax
    by_contra hbelow
    have hle : (MAX : ℝ) + 1 ≤ expReal k := by exact_mod_cast Int.le_floor.mp (Int.add_one_le_of_lt hmax)
    linarith [expReal_le_MAX (not_le.mp hbelow)]
  · intro hhigh
    refine Int.lt_of_add_one_le (Int.le_floor.mpr ?_)
    exact_mod_cast MAX_lt_expReal hhigh

/-- `EXPWAD_REF` is the floor of `y`, or `ArithmeticOverflow` where that exceeds MAX (R101). -/
theorem expwadRef_eq_floor (k : Int) :
    expwadRef k = if MAX < ⌊expReal k⌋ then .err .arithmeticOverflow else .ok ⌊expReal k⌋ := by
  rw [if_congr (MAX_lt_floor_expReal_iff k) rfl rfl]
  split_ifs with hhigh
  · exact expwadRef_high hhigh
  rcases le_or_gt k EXP_ZERO_FROM with hlow | hmid
  · rw [expwadRef_low hlow, (floor_expReal_eq_zero_iff k).mpr hlow]
  · exact (expwadRef_mid hmid (not_le.mp hhigh)).1

theorem expwadRef_eq_ok_iff {k v : Int} : expwadRef k = .ok v ↔ k < EXP_OVERFLOW_FROM ∧ ⌊expReal k⌋ = v := by
  rw [← not_le, ← MAX_lt_floor_expReal_iff, expwadRef_eq_floor]
  split_ifs with hmax <;> simp [hmax]

theorem expwadRef_eq_overflow_iff (k : Int) : expwadRef k = .err .arithmeticOverflow ↔ EXP_OVERFLOW_FROM ≤ k := by
  rw [← MAX_lt_floor_expReal_iff, expwadRef_eq_floor]
  split_ifs with hmax <;> simp [hmax]

/-- Settles O36: `y` is positive, `EXPWAD_REF` is its floor, and the default configuration is built with it. -/
theorem expwadRefIsFloorOfExp : Obligations.ExpwadRefIsFloorOfExp := by
  refine fun k => ⟨expReal_pos k, ?_, rfl⟩
  rw [← MAX_eq]
  exact expwadRef_eq_floor k

/-! ### Thresholds and sample values (R102) -/

/-- `EXPWAD_REF` is 0 exactly up to the zero threshold (R102). -/
theorem expwadRef_eq_zero_iff (k : Int) : expwadRef k = .ok 0 ↔ k ≤ EXP_ZERO_FROM := by
  rw [expwadRef_eq_ok_iff, floor_expReal_eq_zero_iff, and_iff_right_iff_imp]
  exact fun hlow => hlow.trans_lt (by decide)

/-- The values on the inner side of the two thresholds (R102). -/
theorem expwadRef_inner_ends :
    expwadRef (-41446531673892822312) = .ok 1
    ∧ expwadRef 135305999368893231589
      = .ok 57896044618658097707712807547600434460894277218426047864535176624857265142719 := by decide +kernel

/-- The sample values of R102 near 0 and at small multiples of 10^18. -/
theorem expwadRef_samples_near_zero :
    expwadRef 1 = .ok 1000000000000000001 ∧ expwadRef (-1) = .ok 999999999999999999
    ∧ expwadRef (-1000000000000000000) = .ok 367879441171442321
    ∧ expwadRef 2000000000000000000 = .ok 7389056098930650227
    ∧ expwadRef (-2000000000000000000) = .ok 135335283236612691
    ∧ expwadRef 30000000000 = .ok 1000000030000000450
    ∧ expwadRef (-880777111842357385) = .ok 414460704180753595 := by decide +kernel

/-- The sample values of R102 further out. -/
theorem expwadRef_samples_far :
    expwadRef (-35797482889674696671) = .ok 284 ∧ expwadRef (-41000000000000000000) = .ok 1
    ∧ expwadRef 10000000000000000000 = .ok 22026465794806716516957 := by decide +kernel

/-- Settles O37: the thresholds are those of the floor of `y`, and the procedure of R103 evaluates to the samples. -/
theorem expwadRefThresholds : Obligations.ExpwadRefThresholds := by
  obtain ⟨hzeroEnd, hhighEnd⟩ := expwadRef_inner_ends
  obtain ⟨hone, hnegOne, hnegWad, htwoWad, hnegTwoWad, hsmall, hhalf⟩ := expwadRef_samples_near_zero
  obtain ⟨hfar, hneg41, hten⟩ := expwadRef_samples_far
  exact ⟨expwadRef_eq_zero_iff, expwadRef_eq_overflow_iff, expwadRef_zero, hzeroEnd, hhighEnd, hone, hnegOne,
    expwadRef_wad, hnegWad, htwoWad, hnegTwoWad, hsmall, hhalf, hfar, hneg41, hten,
    expwadRef_low (by decide), expwadRef_high (by decide)⟩

/-! ### The named properties (R106) -/

theorem floor_expReal_mono {k l : Int} (h : k ≤ l) : ⌊expReal k⌋ ≤ ⌊expReal l⌋ := Int.floor_mono (expReal_mono h)

theorem floor_expReal_zero : ⌊expReal 0⌋ = 10 ^ 18 := by
  rw [expReal_zero]
  norm_num

/-- `EXPWAD_REF` answers a value at every operand below the overflow threshold (R102). -/
theorem expwadRef_defined {k : Int} (h : k < EXP_OVERFLOW_FROM) : ∃ v, expwadRef k = .ok v :=
  ⟨_, expwadRef_eq_ok_iff.mpr ⟨h, rfl⟩⟩

/-- Settles O38: each property is one of the floor of `y`, which is positive and grows with `k`. -/
theorem expwadRefNamedProperties : Obligations.ExpwadRefNamedProperties := by
  refine ⟨fun k v hv => ?nonneg, expwadRef_eq_ok_iff.mpr ⟨by decide, floor_expReal_zero⟩, fun k l u v hkl hu hv => ?mono,
    fun k l v hkl hv => ?down, fun k v hk hv => ?leOne, fun k hk => expwadRef_defined (Int.lt_add_one_of_le hk),
    fun k v hv => ?accurate⟩
  case nonneg =>
    obtain ⟨-, rfl⟩ := expwadRef_eq_ok_iff.mp hv
    exact floor_expReal_nonneg k
  case mono =>
    obtain ⟨-, rfl⟩ := expwadRef_eq_ok_iff.mp hu
    obtain ⟨-, rfl⟩ := expwadRef_eq_ok_iff.mp hv
    exact floor_expReal_mono hkl
  case down =>
    obtain ⟨hl, -⟩ := expwadRef_eq_ok_iff.mp hv
    exact expwadRef_defined (hkl.trans_lt hl)
  case leOne =>
    obtain ⟨-, rfl⟩ := expwadRef_eq_ok_iff.mp hv
    exact (floor_expReal_mono hk).trans_eq floor_expReal_zero
  case accurate =>
    obtain ⟨-, rfl⟩ := expwadRef_eq_ok_iff.mp hv
    exact ⟨Int.fract_nonneg (expReal k), Int.fract_lt_one (expReal k)⟩

end Sys2Proof.Machine
end

section
/-! PROOFS. Proofs/Erfc.lean: the statements on the polynomial evaluator and the complementary error function (spec
42_erfc.md): the Horner chain and its range (R112, R113), the eight steps of `F_erfc` (R115), its symmetry, range and
worked trace (R118 to R122), and the commands `POLY` and `ERFC` (R114, R121). -/

namespace Sys2Proof.Machine

/-! ### The Horner chain (R112, R113) -/

/-- A Horner step in front of a chain adds its two range checks to those of the chain (R112). -/
theorem hornerStep_bind {t coeff s v : Int} {f : Int → FnOutcome} {P : Prop} [Decidable P]
    (h : f (coeff + Int.tdiv (t * s) (10 ^ 18)) = if P then .ok v else .err .arithmeticOverflow) :
    (hornerStep t coeff s).bind f =
      if Fits (t * s) ∧ Fits (coeff + Int.tdiv (t * s) (10 ^ 18)) ∧ P then .ok v else .err .arithmeticOverflow := by
  rw [hornerStep_eq]
  by_cases hfits : Fits (t * s) ∧ Fits (coeff + Int.tdiv (t * s) (10 ^ 18))
  · rw [if_pos hfits, bind_ok, h]
    exact if_congr ⟨fun hP => ⟨hfits.1, hfits.2, hP⟩, fun hall => hall.2.2⟩ rfl rfl
  · rw [if_neg hfits, bind_err, if_neg fun hall => hfits ⟨hall.1, hall.2.1⟩]

/-- Settles O40: eight Horner steps in front of the last product. -/
theorem polyIsHornerChain : Obligations.PolyIsHornerChain := fun _ _ =>
  hornerStep_bind <| hornerStep_bind <| hornerStep_bind <| hornerStep_bind <| hornerStep_bind <| hornerStep_bind <|
    hornerStep_bind <| hornerStep_bind <| F_mulwad_eq _ _

/-- `F_poly` raises no other error than `ArithmeticOverflow` (R114). -/
theorem F_poly_err {c : Config} {t : Int} {e : FnError} (h : F_poly c t = .err e) : e = .arithmeticOverflow := by
  rw [polyIsHornerChain c t] at h
  split_ifs at h
  exact (FnOutcome.err.inj h).symm

theorem hornerValue_WAD (coeff s : Int) : hornerValue WAD coeff s = coeff + s := by
  rw [hornerValue, Int.mul_tdiv_cancel_left s (by decide)]

theorem polyValue_zero (c : Config) : polyValue c 0 = 0 := by simp [polyValue]

/-- At WAD no product is truncated (R113). -/
theorem polyValue_WAD (c : Config) : polyValue c WAD = c.B + c.C + c.D + c.E + c.F + c.G + c.H + c.I + c.J := by
  simp only [polyValue, hornerValue_WAD, Int.mul_tdiv_cancel_left _ (show WAD ≠ 0 by decide)]
  ring

/-- A sum of the chain cannot overflow: the rescaled product is far below 2^255 (R113). -/
theorem fits_add_rescaled {coeff p : Int} (hcoeff : |coeff| ≤ 2 * 10 ^ 18) (hp : Fits p) :
    Fits (coeff + Int.tdiv p (10 ^ 18)) := by
  have hmag : (Int.tdiv p (10 ^ 18)).natAbs = p.natAbs / 10 ^ 18 := Int.natAbs_tdiv p (10 ^ 18)
  rw [abs_le] at hcoeff
  omega

/-- The overflow thresholds of `F_poly` with the default configuration, and its value at WAD (R113). -/
theorem F_poly_default_thresholds :
    F_poly Config.default (10 ^ 18) = .ok 1265512260000000000
    ∧ F_poly Config.default (10 ^ 23) = .err .arithmeticOverflow
    ∧ F_poly Config.default (-10 ^ 23) = .err .arithmeticOverflow
    ∧ F_poly Config.default (10 ^ 22) = .ok 170790569661023523904944216221599196236800000000000000
    ∧ F_poly Config.default (-10 ^ 22) = .ok (-170955000109293931868669977346780804236800000000000000) := by decide

/-- Settles O41: on [0, WAD] `F_poly` is its value without the checks, which is bounded; the rest is evaluated. -/
theorem polyOnUnitInterval : Obligations.PolyOnUnitInterval := by
  refine ⟨fun c hc => ⟨?zero, ?wad, fun t ht ht' => ?unit, fun _ _ _ => fits_add_rescaled⟩, F_poly_default_thresholds⟩
  case zero => rw [(F_poly_unit hc le_rfl (by decide)).1, polyValue_zero]
  case wad => rw [← WAD_eq, (F_poly_unit hc (by decide) le_rfl).1, polyValue_WAD]
  case unit =>
    obtain ⟨hv, hlow, hhigh⟩ := F_poly_unit hc ht (WAD_eq ▸ ht')
    exact ⟨_, hv, abs_le.mpr ⟨by omega, hhigh⟩⟩

/-! ### How a command completes, from its next state (R65, R154) -/

section Completion
variable {s t : State} {i : Instr}

theorem exec_returns (h : outcome s i ≠ .noReturn) : ∃ t, exec i s = .next t := by
  rw [exec_eq]
  exact command_returns s i.dest i.sources h

theorem completedOk_of_exec (h : exec i s = .next t) {v : Int} (hv : outcome s i = .ok v) (hfits : Fits v) :
    s.CompletedOk t i.dest v := by
  obtain ⟨_, ht', hok⟩ := exec_completedOk hv hfits
  cases h.symm.trans ht'
  exact hok

theorem completedErr_of_exec (h : exec i s = .next t) {e : FnError} (he : outcome s i = .err e) :
    s.CompletedErr t (code e) := by
  obtain ⟨_, ht', herr⟩ := exec_completedErr he
  cases h.symm.trans ht'
  exact herr

end Completion

/-! ### POLY (R114) -/

/-- The corner cases and the example of R114 that give a value. -/
theorem F_poly_default_samples :
    ∀ p ∈ ([(0, 0), (1, 1), (-1, -1), (10 ^ 18, 1265512260000000000), (-10 ^ 18, -4804616880000000000),
      (2 * 10 ^ 18, 5106721920000000000), (733446056389782958, 913051235792489313)] : List (Int × Int)),
      F_poly Config.default p.1 = .ok p.2 := by decide

/-- The corner cases of R114 that overflow. -/
theorem F_poly_default_overflows :
    ∀ x ∈ ([10 ^ 23, 10 ^ 30, 2 ^ 255 - 1, -2 ^ 255] : List Int),
      F_poly Config.default x = .err .arithmeticOverflow := by decide

/-- Settles O42: a word of the sixth row is `POLY`, whose outcome is that of `F_poly` on the source. -/
theorem polyWritesStep : Obligations.PolyWritesStep := by
  refine ⟨fun c h => decode_of_rowMatches (j := 5) h, rfl, fun s rd ra => ?_⟩
  intro x
  obtain ⟨t, ht⟩ := exec_returns (s := s) (i := .poly rd ra) (F_poly_returns s.cfg x)
  have hok {v : Int} (hv : F_poly s.cfg x = .ok v) : s.CompletedOk t rd v := completedOk_of_exec ht hv (F_poly_fits hv)
  have herr {e : FnError} (he : F_poly s.cfg x = .err e) : s.CompletedErr t 0x04#8 := by
    cases F_poly_err he
    exact completedErr_of_exec ht he
  refine ⟨t, ht, fun v => hok, fun e => herr, fun hadm h0 hWAD => ?unit, fun hdef => ⟨fun p hp hx => ?value,
    fun x' hx' hx => ?overflow⟩⟩
  case unit => exact (hok (F_poly_unit hadm h0 (WAD_eq ▸ hWAD)).1).status
  case value => exact hok (by rw [hdef, hx, F_poly_default_samples p hp])
  case overflow => exact herr (by rw [hdef, hx, F_poly_default_overflows x' hx'])

/-! ### The eight steps of `F_erfc` (R115) -/

/-- Step 3 in the words of R115. -/
theorem erfcTValue_eq (z : Int) :
    erfcTValue z = Int.tdiv (10 ^ 36) (10 ^ 18 + Int.tdiv (z * 10 ^ 18) (2 * 10 ^ 18)) := by
  rw [Int.mul_tdiv_mul_of_pos_left z 2 (by norm_num), erfcTValue, WAD_eq, WAD2_eq]

/-- Step 5 below ERFC_BOUND: only the subtraction of `A` and the addition of `step` can overflow (R117). -/
theorem erfcExponent_eq (c : Config) {z : Int} (step : Int) (h : 0 ≤ z) (h' : z < ERFC_BOUND) :
    erfcExponent c z step =
      let v := -Int.tdiv (z * z) (10 ^ 18) - c.A
      if Fits v ∧ Fits (v + step) then .ok (v + step) else .err .arithmeticOverflow := by
  obtain ⟨hsq0, hsq1⟩ := square_bounds h h'
  have hzz0 : 0 ≤ Int.tdiv (z * z) (10 ^ 18) := tdiv_nonneg hsq0 (by norm_num)
  have hzz1 : Int.tdiv (z * z) (10 ^ 18) ≤ 34809999999999999988 :=
    (tdiv_mono_nonneg hsq0 hsq1 (by norm_num)).trans (by decide)
  rw [erfcExponent, F_mulwad_eq, if_pos ⟨by omega, by omega⟩, bind_ok, chk_eq, if_pos ⟨by omega, by omega⟩, bind_ok,
    chk_eq]
  by_cases hv : Fits (-Int.tdiv (z * z) (10 ^ 18) - c.A)
  · rw [if_pos hv, bind_ok, chk_eq]
    exact if_congr ⟨fun hk => ⟨hv, hk⟩, And.right⟩ rfl rfl
  · rw [if_neg hv, bind_err, if_neg fun hall => hv hall.1]

/-- Steps 3 to 7 below ERFC_BOUND, step 3 having its value (R115). -/
theorem erfcR_eq (c : Config) {z : Int} (h : 0 ≤ z) (h' : z < ERFC_BOUND) :
    erfcR c z = (F_poly c (erfcTValue z)).bind fun step =>
      (erfcExponent c z step).bind fun k => (F_exp c k).bind fun e => F_mulwad (erfcTValue z) e := by
  rw [erfcR, (erfcT_value h h').1, bind_ok]

theorem F_erfc_high (c : Config) {x : Int} (h : ERFC_BOUND ≤ x) : F_erfc c x = .ok 0 := if_pos h

theorem F_erfc_low (c : Config) {x : Int} (h : x ≤ -ERFC_BOUND) : F_erfc c x = .ok TWO_WAD := by
  rw [F_erfc, if_neg (by simp only [ERFC_BOUND] at *; omega), if_pos h]

/-- Between the bounds step 2 cannot fail, and what is left is steps 3 to 7 on the magnitude and the sign branch
(R116). -/
theorem F_erfc_mid (c : Config) {x : Int} (h : |x| < ERFC_BOUND) :
    F_erfc c x = (erfcR c |x|).bind fun r => if 0 ≤ x then .ok r else chk (TWO_WAD - r) := by
  obtain ⟨hlow, hhigh⟩ := abs_lt.mp h
  have hmin : x ≠ -2 ^ 255 := by simp only [ERFC_BOUND] at hlow; omega
  rw [F_erfc, if_neg (not_le.mpr hhigh), if_neg (not_le.mpr hlow), F_abs_eq_abs hmin, bind_ok]

/-- Settles O43: the bounds of step 1, then each step that can fail in turn. -/
theorem erfcIsEightSteps : Obligations.ErfcIsEightSteps := by
  intro c x z t
  by_cases hhigh : 5900000000000000000 ≤ x
  · rw [if_pos hhigh, F_erfc_high c hhigh]
  by_cases hlow : x ≤ -5900000000000000000
  · rw [if_neg hhigh, if_pos hlow, F_erfc_low c hlow, TWO_WAD_eq]
  have hz : z < ERFC_BOUND := abs_lt.mpr ⟨not_le.mp hlow, not_le.mp hhigh⟩
  rw [if_neg hhigh, if_neg hlow, F_erfc_mid c hz, erfcR_eq c (abs_nonneg x) hz, erfcTValue_eq]
  cases F_poly c t with
  | err e => rfl
  | noReturn => rfl
  | ok step =>
    rw [bind_ok, erfcExponent_eq c step (abs_nonneg x) hz]
    dsimp only
    generalize -Int.tdiv (|x| * |x|) (10 ^ 18) - c.A = v
    by_cases hk : Fits v ∧ Fits (v + step)
    · rw [if_pos hk, if_neg (not_not_intro hk), bind_ok]
      cases F_exp c (v + step) with
      | err e => rfl
      | noReturn => rfl
      | ok e =>
        dsimp only
        rw [bind_ok, F_mulwad_eq]
        by_cases hp : Fits (t * e)
        · rw [if_pos hp, if_neg (not_not_intro hp), bind_ok, chk_eq, TWO_WAD_eq]
        · rw [if_neg hp, if_pos hp, bind_err]
    · rw [if_neg hk, if_pos hk]
      rfl

/-- With an exponential that meets R100 the only error of `F_erfc` is `ArithmeticOverflow` (R121). -/
theorem F_erfc_err {c : Config} (hc : c.expwad.lawful = true) {x : Int} {e : FnError} (h : F_erfc c x = .err e) :
    e = .arithmeticOverflow := by
  rcases le_or_gt ERFC_BOUND |x| with hout | hmid
  · rcases le_abs.mp hout with hhigh | hlow
    · rw [F_erfc_high c hhigh] at h
      cases h
    · rw [F_erfc_low c (by omega)] at h
      cases h
  rw [F_erfc_mid c hmid, erfcR_eq c (abs_nonneg x) hmid] at h
  rcases bind_eq_err h with hr | ⟨r, -, hsign⟩
  · rcases bind_eq_err hr with hpoly | ⟨step, -, hr⟩
    · exact F_poly_err hpoly
    rcases bind_eq_err hr with hk | ⟨k, -, hr⟩
    · rw [erfcExponent_eq c step (abs_nonneg x) hmid] at hk
      dsimp only at hk
      split_ifs at hk
      exact (FnOutcome.err.inj hk).symm
    rcases bind_eq_err hr with hexp | ⟨e', -, hprod⟩
    · exact F_exp_err hc hexp
    · exact F_mulwad_err hprod
  · split_ifs at hsign
    exact chk_eq_err hsign

/-! ### Symmetry and range (R118 to R120) -/

/-- Below zero `F_erfc` is the checked complement of its outcome at the magnitude (R118). -/
theorem F_erfc_neg {x : Int} (c : Config) (h : 0 < x) :
    F_erfc c (-x) = (F_erfc c x).bind fun r => chk (TWO_WAD - r) := by
  rcases le_or_gt ERFC_BOUND x with hhigh | hmid
  · rw [F_erfc_high c hhigh, F_erfc_low c (by omega)]
    rfl
  have habs : |x| < ERFC_BOUND := by rwa [abs_of_pos h]
  rw [F_erfc_mid c habs, F_erfc_mid c (by rwa [abs_neg]), abs_neg]
  simp only [h.le, if_true, show ¬0 ≤ -x by omega, if_false]
  cases erfcR c |x| <;> rfl

/-- The values at `x` and `-x` add up to 2*WAD, except at zero (R118). -/
theorem F_erfc_add_neg {c : Config} {x u v : Int} (h0 : x ≠ 0) (hu : F_erfc c x = .ok u) (hv : F_erfc c (-x) = .ok v) :
    u + v = 2 * 10 ^ 18 := by
  have hpos {y a b : Int} (hy : 0 < y) (ha : F_erfc c y = .ok a) (hb : F_erfc c (-y) = .ok b) : b = TWO_WAD - a := by
    rw [F_erfc_neg c hy, ha, bind_ok] at hb
    exact (chk_eq_ok_iff.mp hb).2.2
  rw [← TWO_WAD_eq]
  rcases lt_or_gt_of_ne h0 with hneg | hx
  · have := hpos (neg_pos.mpr hneg) hv (by rwa [neg_neg])
    omega
  · have := hpos hx hu hv
    omega

/-- The corner cases and the example of R121 between the bounds; the values around zero are those of R118. -/
theorem F_erfc_default_samples :
    ∀ p ∈ ([(5899999999999999999, 71), (-5899999999999999999, 1999999999999999929), (0, 1000000030000000450),
      (1, 1000000030000000450), (-1, 999999969999999550), (10 ^ 18, 157299212239993275)] : List (Int × Int)),
      F_erfc Config.default p.1 = .ok p.2 := by decide +kernel

/-- Settles O44: the two values add up to 2*WAD, and with the default configuration both exist. -/
theorem erfcPointSymmetry : Obligations.ErfcPointSymmetry := by
  refine ⟨fun c x u v h0 hu hv => eq_sub_of_add_eq' (F_erfc_add_neg h0 hu hv), fun x _ h0 _ => ?_,
    F_erfc_default_samples (0, 1000000030000000450) (by decide),
    F_erfc_default_samples (-1, 999999969999999550) (by decide)⟩
  obtain ⟨u, hu, -⟩ := F_erfc_default_range x
  obtain ⟨v, hv, -⟩ := F_erfc_default_range (-x)
  exact ⟨u, hu, eq_sub_of_add_eq' (F_erfc_add_neg h0 hu hv) ▸ hv⟩

/-- Settles O45: `F_erfc` has a value in range at every operand, and the command completes with it. -/
theorem erfcTotalInRange : Obligations.ErfcTotalInRange := by
  intro s rd ra hdef
  obtain ⟨v, hv, hlow, hhigh⟩ := F_erfc_default_range (s.operand ra)
  have hout : outcome s (.erfc rd ra) = .ok v := (congrArg (F_erfc · _) (cfgNow_of_default hdef)).trans hv
  obtain ⟨t, ht, hok⟩ := exec_completedOk hout (F_erfc_fits hv)
  exact ⟨t, v, ht, hok, hlow, TWO_WAD_eq ▸ hhigh⟩

/-! ### The worked trace (R122) -/

/-- Settles O46: each intermediate is evaluated, and the results are put together from them. -/
theorem erfcWorkedTrace : Obligations.ErfcWorkedTrace := by
  unfold Obligations.ErfcWorkedTrace
  intro z
  have ht : erfcT z = .ok 733446056389782958 := by decide
  have hstep : F_poly Config.default 733446056389782958 = .ok 913051235792489313 := by decide
  have hk : erfcExponent Config.default z 913051235792489313 = .ok (-880777111842357385) := by decide
  have hexp : F_exp Config.default (-880777111842357385) = .ok 414460704180753595 := by
    obtain ⟨-, -, -, -, -, -, hsample⟩ := expwadRef_samples_near_zero
    exact hsample
  have hr : F_mulwad 733446056389782958 414460704180753595 = .ok 303984569009906154 := by decide
  have hpos : F_erfc Config.default z = .ok 303984569009906154 := by
    have hR : erfcR Config.default |z| = .ok 303984569009906154 := by
      rw [show |z| = z by decide, erfcR, ht, bind_ok, hstep, bind_ok, hk, bind_ok, hexp, bind_ok, hr]
    rw [F_erfc_mid _ (by decide), hR]
    rfl
  refine ⟨ht, hstep, by decide, hk, hexp, hr, hpos, ?_⟩
  rw [F_erfc_neg _ (by decide), hpos]
  rfl

/-! ### ERFC (R121) -/

/-- `F_erfc` returns under a total exponential and where it saturates (R121, U5). -/
theorem erfc_outcome_returns {s : State} {rd ra : Reg}
    (h : s.Returns (.erfc rd ra) ∨ ERFC_BOUND ≤ s.operand ra ∨ s.operand ra ≤ -ERFC_BOUND) :
    outcome s (.erfc rd ra) ≠ .noReturn := by
  rcases h with hret | hhigh | hlow
  · exact outcome_returns hret
  · rw [outcome, F_erfc_high _ hhigh]
    simp
  · rw [outcome, F_erfc_low _ hlow]
    simp

/-- Settles O47: a word of the seventh row is `ERFC`, whose outcome is that of `F_erfc` on the source. -/
theorem erfcWritesResult : Obligations.ErfcWritesResult := by
  refine ⟨fun c h => decode_of_rowMatches (j := 6) h, rfl, fun s rd ra => ?_⟩
  intro x hreturns
  obtain ⟨t, ht⟩ := exec_returns (erfc_outcome_returns hreturns)
  have hok {v : Int} (hv : F_erfc s.cfgNow x = .ok v) : s.CompletedOk t rd v :=
    completedOk_of_exec ht hv (F_erfc_fits hv)
  have herr {e : FnError} (he : F_erfc s.cfgNow x = .err e) : s.CompletedErr t (code e) := completedErr_of_exec ht he
  refine ⟨t, ht, fun v => hok, fun e => herr, fun e he hlaw => ?lawful, fun h => hok (F_erfc_high _ h),
    fun h => TWO_WAD_eq ▸ hok (F_erfc_low _ h), fun hdef => ⟨?total, ?samples⟩⟩
  case lawful =>
    have hlawful : s.cfgNow.expwad.lawful = true := by rwa [cfgNow_expwad, lawful_after]
    cases F_erfc_err hlawful he
    exact herr he
  case total =>
    obtain ⟨v, hv, -⟩ := F_erfc_default_range x
    exact (hok ((cfgNow_of_default hdef).symm ▸ hv)).status
  case samples =>
    intro p hp hx
    exact hok (by rw [cfgNow_of_default hdef, hx, F_erfc_default_samples p hp])

end Sys2Proof.Machine
end

section
/-! PROOFS. Proofs/Cdf.lean: the statements on the CDF wrapper (spec 43_cdf.md): its four steps (R130) and the order of
validation (R131), its range and its value at the mean (R135, R136), saturation (R140), the traced scenarios (R138,
R139), and the command `CDF` (R137). -/

namespace Sys2Proof.Machine

/-! ### Validation (R130, R131) -/

section Validation
variable {x mu sigma : Int} (c : Config)

/-- `F_cdf` with the bounds in the words of the statements. -/
theorem F_cdf_eq (x mu sigma : Int) :
    F_cdf c x mu sigma =
      if x < -10 ^ 23 ∨ 10 ^ 23 < x then .err .xOutOfBounds
      else if mu < -10 ^ 20 ∨ 10 ^ 20 < mu then .err .muOutOfBounds
      else if sigma ≤ 0 ∨ 10 ^ 19 < sigma then .err .sigmaOutOfBounds
      else (cdfArgument c x mu sigma).bind fun negatedZ =>
        (F_erfc c negatedZ).bind fun e => F_muldiv WAD e TWO_WAD := by
  have hX : X_BOUND = 10 ^ 23 := by norm_num [X_BOUND]
  have hMU : MU_BOUND = 10 ^ 20 := by norm_num [MU_BOUND]
  have hSIGMA : SIGMA_BOUND = 10 ^ 19 := by norm_num [SIGMA_BOUND]
  rw [F_cdf, hX, hMU, hSIGMA]

theorem F_cdf_x_out (mu sigma : Int) (hx : x < -10 ^ 23 ∨ 10 ^ 23 < x) :
    F_cdf c x mu sigma = .err .xOutOfBounds := by
  rw [F_cdf_eq, if_pos hx]

theorem F_cdf_mu_out (sigma : Int) (hx : ¬(x < -10 ^ 23 ∨ 10 ^ 23 < x)) (hmu : mu < -10 ^ 20 ∨ 10 ^ 20 < mu) :
    F_cdf c x mu sigma = .err .muOutOfBounds := by
  rw [F_cdf_eq, if_neg hx, if_pos hmu]

theorem F_cdf_sigma_out (hx : ¬(x < -10 ^ 23 ∨ 10 ^ 23 < x)) (hmu : ¬(mu < -10 ^ 20 ∨ 10 ^ 20 < mu))
    (hsigma : sigma ≤ 0 ∨ 10 ^ 19 < sigma) : F_cdf c x mu sigma = .err .sigmaOutOfBounds := by
  rw [F_cdf_eq, if_neg hx, if_neg hmu, if_pos hsigma]

theorem cdfValid_of_within (hx : ¬(x < -10 ^ 23 ∨ 10 ^ 23 < x)) (hmu : ¬(mu < -10 ^ 20 ∨ 10 ^ 20 < mu))
    (hsigma : ¬(sigma ≤ 0 ∨ 10 ^ 19 < sigma)) : CdfValid x mu sigma := by
  omega

/-- Operands out of bounds are one of the three bounds errors, under every configuration (R131). -/
theorem F_cdf_invalid (h : ¬CdfValid x mu sigma) :
    ∃ e, F_cdf c x mu sigma = .err e ∧ (e = .xOutOfBounds ∨ e = .muOutOfBounds ∨ e = .sigmaOutOfBounds) := by
  by_cases hx : x < -10 ^ 23 ∨ 10 ^ 23 < x
  · exact ⟨_, F_cdf_x_out c mu sigma hx, .inl rfl⟩
  by_cases hmu : mu < -10 ^ 20 ∨ 10 ^ 20 < mu
  · exact ⟨_, F_cdf_mu_out c sigma hx hmu, .inr (.inl rfl)⟩
  by_cases hsigma : sigma ≤ 0 ∨ 10 ^ 19 < sigma
  · exact ⟨_, F_cdf_sigma_out c hx hmu hsigma, .inr (.inr rfl)⟩
  · exact absurd (cdfValid_of_within hx hmu hsigma) h

end Validation

/-- Settles O55: each scenario violates one bound, and no earlier one. -/
theorem cdfErrorScenarios : Obligations.CdfErrorScenarios := fun c =>
  ⟨F_cdf_x_out c _ _ (by decide), F_cdf_x_out c _ _ (by decide), F_cdf_mu_out c _ (by decide) (by decide),
    F_cdf_mu_out c _ (by decide) (by decide), F_cdf_sigma_out c (by decide) (by decide) (by decide),
    F_cdf_sigma_out c (by decide) (by decide) (by decide)⟩

/-! ### The four steps (R130, R132, R133) -/

/-- Step 2 on valid operands: of its checks only those of the denominator can fail (R132). -/
theorem cdfArgument_eq (c : Config) {x mu sigma : Int} (h : CdfValid x mu sigma) :
    cdfArgument c x mu sigma =
      if ¬Fits (c.SQRT2 * sigma) then .err .arithmeticOverflow
      else if c.SQRT2 * sigma = 0 then .err .divideByZero
      else .ok (-Int.tdiv ((x - mu) * 10 ^ 36) (c.SQRT2 * sigma)) := by
  obtain ⟨hx, hx', hmu, hmu', -, -⟩ := h
  have hdiff : Fits (x - mu) := ⟨by omega, by omega⟩
  have hprod : ((x - mu) * 10 ^ 36).natAbs < 2 ^ 255 := by omega
  have hquot : (-Int.tdiv ((x - mu) * 10 ^ 36) (c.SQRT2 * sigma)).natAbs < 2 ^ 255 := by
    rw [Int.natAbs_neg, ← tdiv_eq_tdiv]
    exact (natAbs_tdiv_le _ _).trans_lt hprod
  rw [cdfArgument, chk_eq, if_pos hdiff, bind_ok, chk_eq]
  generalize c.SQRT2 * sigma = den at *
  by_cases hden : Fits den
  · rw [if_pos hden, if_neg (not_not_intro hden), bind_ok, F_muldiv_eq, WAD2_eq,
      if_neg (not_not_intro ⟨by omega, by omega⟩)]
    by_cases hzero : den = 0
    · rw [if_pos hzero, if_pos hzero, bind_err]
    · rw [if_neg hzero, if_neg hzero, if_neg (by omega), bind_ok, chk_of_natAbs hquot]
  · rw [if_neg hden, if_pos hden, bind_err]

/-- Step 4 can only fail in its product (R133). -/
theorem rescale_eq (e : Int) :
    F_muldiv WAD e TWO_WAD =
      if Fits (10 ^ 18 * e) then .ok (Int.tdiv (10 ^ 18 * e) (2 * 10 ^ 18)) else .err .arithmeticOverflow := by
  rw [F_muldiv_eq, WAD_eq, TWO_WAD_eq]
  by_cases h : Fits (10 ^ 18 * e)
  · rw [if_neg (not_not_intro h), if_neg (by norm_num), if_neg (by norm_num), if_pos h]
  · rw [if_pos h, if_neg h]

/-- Settles O48: past validation, step 2 has two checks that can fail and step 4 has one. -/
theorem cdfIsFourSteps : Obligations.CdfIsFourSteps := by
  intro c x mu sigma den
  rw [F_cdf_eq]
  refine ite_congr rfl (fun _ => rfl) fun hx => ite_congr rfl (fun _ => rfl) fun hmu =>
    ite_congr rfl (fun _ => rfl) fun hsigma => ?_
  rw [cdfArgument_eq c (cdfValid_of_within hx hmu hsigma)]
  by_cases hden : Fits den
  · rw [if_neg (not_not_intro hden), if_neg (not_not_intro hden)]
    by_cases hzero : den = 0
    · rw [if_pos hzero, if_pos hzero, bind_err]
    · rw [if_neg hzero, if_neg hzero, bind_ok]
      cases F_erfc c (-Int.tdiv ((x - mu) * 10 ^ 36) den) with
      | err e => rfl
      | noReturn => rfl
      | ok e => exact rescale_eq e
  · rw [if_pos hden, if_pos hden, bind_err]

/-- On valid operands an exponential that meets R100 leaves `F_cdf` two errors, one of them only if the denominator is
0 (R137). -/
theorem F_cdf_err_of_valid {c : Config} (hc : c.expwad.lawful = true) {x mu sigma : Int} (h : CdfValid x mu sigma)
    {e : FnError} (he : F_cdf c x mu sigma = .err e) :
    e = .arithmeticOverflow ∨ e = .divideByZero ∧ c.SQRT2 = 0 := by
  obtain ⟨-, -, -, -, hsigma, -⟩ := id h
  rw [F_cdf_eq, if_neg (by omega), if_neg (by omega), if_neg (by omega), cdfArgument_eq c h] at he
  rcases bind_eq_err he with harg | ⟨negatedZ, -, hrest⟩
  · split_ifs at harg with hden hzero
    · exact .inr ⟨(FnOutcome.err.inj harg).symm, (Int.mul_eq_zero.mp hzero).resolve_right hsigma.ne'⟩
    · exact .inl (FnOutcome.err.inj harg).symm
  rcases bind_eq_err hrest with herfc | ⟨v, -, hrescale⟩
  · exact .inl (F_erfc_err hc herfc)
  · rw [rescale_eq] at hrescale
    split_ifs at hrescale
    exact .inl (FnOutcome.err.inj hrescale).symm

/-- Every error of `F_cdf` under an exponential that meets R100 (R137). -/
theorem F_cdf_err {c : Config} (hc : c.expwad.lawful = true) {x mu sigma : Int} {e : FnError}
    (he : F_cdf c x mu sigma = .err e) :
    (e = .xOutOfBounds ∨ e = .muOutOfBounds ∨ e = .sigmaOutOfBounds)
      ∨ e = .arithmeticOverflow ∨ e = .divideByZero ∧ c.SQRT2 = 0 := by
  by_cases hvalid : CdfValid x mu sigma
  · exact .inr (F_cdf_err_of_valid hc hvalid he)
  · obtain ⟨e', he', hbounds⟩ := F_cdf_invalid c hvalid
    cases he.symm.trans he'
    exact .inl hbounds

section LawfulErrors
variable {c : Config} {x mu sigma : Int} (hc : c.expwad.lawful = true)
include hc

/-- `F_cdf` never meets the one operand `F_abs` refuses (R137). -/
theorem F_cdf_ne_minValueUnrepresentable : F_cdf c x mu sigma ≠ .err .minValueUnrepresentable := by
  intro he
  rcases F_cdf_err hc he with (h | h | h) | h | ⟨h, -⟩ <;> cases h

/-- `F_cdf` divides by zero only if `SQRT2` is 0 (R137). -/
theorem SQRT2_eq_zero_of_divideByZero (he : F_cdf c x mu sigma = .err .divideByZero) : c.SQRT2 = 0 := by
  rcases F_cdf_err hc he with (h | h | h) | h | ⟨-, hzero⟩
  case inr.inr => exact hzero
  all_goals cases h

end LawfulErrors

theorem lawful_cfgNow {s : State} (h : s.cfg.expwad.lawful = true) : s.cfgNow.expwad.lawful = true := by
  rwa [cfgNow_expwad, lawful_after]

/-! ### The order of validation, seen on the command (R131) -/

/-- `F_cdf` returns under a total exponential and where validation fails (R131, U5). -/
theorem cdf_outcome_returns {s : State} {rd ra rb rc : Reg}
    (h : s.Returns (.cdf rd ra rb rc) ∨ ¬CdfValid (s.operand ra) (s.operand rb) (s.operand rc)) :
    outcome s (.cdf rd ra rb rc) ≠ .noReturn := by
  rcases h with hret | hinvalid
  · exact outcome_returns hret
  · obtain ⟨e, he, -⟩ := F_cdf_invalid s.cfgNow hinvalid
    rw [outcome, he]
    simp

/-- A command that returned completed with the code of its function's outcome (R65). -/
theorem status_of_exec {s t : State} {i : Instr} (h : exec i s = .next t) : (outcome s i).status = some t.status := by
  rw [exec_eq] at h
  exact (command_spec h).1

/-- Settles O49: a violated bound is the outcome of `F_cdf`, and within the bounds no outcome has one of the three
codes. -/
theorem cdfValidationOrder : Obligations.CdfValidationOrder := by
  intro s rd ra rb rc x mu sigma hreturns
  obtain ⟨t, ht⟩ := exec_returns (cdf_outcome_returns hreturns)
  have herr {e : FnError} (he : F_cdf s.cfgNow x mu sigma = .err e) : s.CompletedErr t (code e) :=
    completedErr_of_exec ht he
  refine ⟨t, ht, ?_⟩
  split_ifs with hx hmu hsigma
  · exact herr (F_cdf_x_out _ mu sigma hx)
  · exact herr (F_cdf_mu_out _ sigma hx hmu)
  · exact herr (F_cdf_sigma_out _ hx hmu hsigma)
  · intro hlaw
    have hstatus : (F_cdf s.cfgNow x mu sigma).status = some t.status := status_of_exec ht
    match hout : F_cdf s.cfgNow x mu sigma with
    | .ok v =>
      rw [hout] at hstatus
      rw [← Option.some.inj hstatus]
      decide
    | .err e =>
      rw [(herr hout).status]
      have hvalid : CdfValid x mu sigma := cdfValid_of_within hx hmu hsigma
      rcases F_cdf_err_of_valid (lawful_cfgNow hlaw) hvalid hout with rfl | ⟨rfl, -⟩ <;> decide
    | .noReturn =>
      rw [hout] at hstatus
      cases hstatus

/-! ### The value on valid operands (R133, R135, R140) -/

section Value
variable {c : Config} {x mu sigma : Int}

/-- `negatedZ` in the words of the statements. -/
theorem cdfArgumentValue_eq (c : Config) (x mu sigma : Int) :
    cdfArgumentValue c x mu sigma = -Int.tdiv ((x - mu) * 10 ^ 36) (c.SQRT2 * sigma) := by
  rw [cdfArgumentValue, WAD2_eq]

/-- The value of `F_cdf` is half of the value of `F_erfc` at `negatedZ` (R133). -/
theorem F_cdf_of_erfc (hc : c.admissible = true) (h : CdfValid x mu sigma) {a e : Int}
    (ha : cdfArgumentValue c x mu sigma = a) (he : F_erfc c a = .ok e) (he0 : 0 ≤ e) (he1 : e ≤ TWO_WAD) :
    F_cdf c x mu sigma = .ok (Int.tdiv e 2) := by
  rw [F_cdf_valid hc h, ha, he, bind_ok, rescale_value he0 he1]

theorem F_cdf_eq_zero (hc : c.admissible = true) (h : CdfValid x mu sigma)
    (hz : ERFC_BOUND ≤ cdfArgumentValue c x mu sigma) : F_cdf c x mu sigma = .ok 0 :=
  F_cdf_of_erfc hc h rfl (F_erfc_high c hz) le_rfl (by decide)

theorem F_cdf_eq_WAD (hc : c.admissible = true) (h : CdfValid x mu sigma)
    (hz : cdfArgumentValue c x mu sigma ≤ -ERFC_BOUND) : F_cdf c x mu sigma = .ok (10 ^ 18) :=
  F_cdf_of_erfc hc h rfl (F_erfc_low c hz) (by decide) le_rfl

end Value

/-- Settles O50: the value of `F_erfc` lies in [0, 2*WAD], so half of it lies in [0, WAD]. -/
theorem cdfTotalInUnitRange : Obligations.CdfTotalInUnitRange := by
  intro s rd ra rb rc hdef hvalid
  obtain ⟨e, he, he0, he1, hv⟩ := F_cdf_default_value hvalid
  have hout : outcome s (.cdf rd ra rb rc) = .ok (Int.tdiv e 2) :=
    (congrArg (F_cdf · _ _ _) (cfgNow_of_default hdef)).trans hv
  obtain ⟨t, ht, hok⟩ := exec_completedOk hout (F_cdf_fits hv)
  rw [cdfArgumentValue_eq] at he
  have hhalf : Int.tdiv e 2 = e / 2 := Int.tdiv_eq_ediv_of_nonneg he0
  rw [TWO_WAD_eq] at he1
  exact ⟨t, e, Int.tdiv e 2, ht, hok, he, hhalf, by omega, by omega⟩

/-- Settles O52: where `F_erfc` saturates at 0 or 2*WAD, its half is 0 or WAD. -/
theorem cdfSaturates : Obligations.CdfSaturates := by
  intro s rd ra rb rc hadm hvalid q
  have hlaw : s.cfg.expwad.lawful = true := lawful_of_admissible hadm
  obtain ⟨t, ht⟩ := exec_returns (cdf_outcome_returns (rd := rd) (.inl (.inl (total_of_lawful hlaw))))
  have hok {v : Int} (hv : F_cdf s.cfg s.w[ra].toInt s.w[rb].toInt s.w[rc].toInt = .ok v) : s.CompletedOk t rd v :=
    completedOk_of_exec ht (by rw [outcome, cfgNow_of_lawful hlaw]; exact hv) (F_cdf_fits hv)
  have hq : cdfArgumentValue s.cfg s.w[ra].toInt s.w[rb].toInt s.w[rc].toInt = -q := cdfArgumentValue_eq ..
  exact ⟨t, ht, fun hlow => hok (F_cdf_eq_zero hadm hvalid (hq ▸ hlow)),
    fun hhigh => hok (F_cdf_eq_WAD hadm hvalid (hq ▸ hhigh))⟩

/-! ### At the mean (R136) -/

theorem cdfArgumentValue_mean (c : Config) (mu sigma : Int) : cdfArgumentValue c mu mu sigma = 0 := by
  rw [cdfArgumentValue, sub_self, zero_mul, Int.zero_tdiv, neg_zero]

theorem F_cdf_default_mean {mu sigma : Int} (h : CdfValid mu mu sigma) :
    F_cdf Config.default mu mu sigma = .ok 500000015000000225 :=
  F_cdf_of_erfc (by decide) h (cdfArgumentValue_mean ..)
    (F_erfc_default_samples (0, 1000000030000000450) (by decide)) (by decide) (by decide)

/-- Settles O51: at the mean `negatedZ` is 0; two units above it, `negatedZ` is -1 and the value is smaller. -/
theorem cdfAtMean : Obligations.CdfAtMean := by
  refine ⟨fun c mu sigma e hadm hvalid he he0 he1 => ?_, fun mu sigma => F_cdf_default_mean, ?_⟩
  · exact F_cdf_of_erfc hadm hvalid (cdfArgumentValue_mean ..) he he0 (TWO_WAD_eq ▸ he1)
  · exact F_cdf_of_erfc (a := -1) (by decide) (by decide) (by decide)
      (F_erfc_default_samples (-1, 999999969999999550) (by decide)) (by decide) (by decide)

/-! ### The concrete scenario (R138) -/

/-- Settles O54: the ERFC value is that of the worked trace of R122, and the rest is arithmetic. -/
theorem cdfConcreteScenario : Obligations.CdfConcreteScenario := by
  unfold Obligations.CdfConcreteScenario
  intro x mu sigma
  obtain ⟨-, -, -, -, -, -, -, herfc⟩ := erfcWorkedTrace
  exact ⟨by decide, by decide, by decide, herfc, by decide,
    F_cdf_of_erfc (by decide) (by decide) (by decide) herfc (by decide) (by decide)⟩

/-! ### The thresholds with the default configuration (R137) -/

section Thresholds
variable {x mu sigma : Int}

/-- Between the bounds `F_erfc` with the default configuration is near neither end (R119, R120). -/
theorem F_erfc_default_mid (h : |x| < ERFC_BOUND) :
    ∃ v, F_erfc Config.default x = .ok v ∧ 2 ≤ v ∧ v ≤ TWO_WAD - 2 := by
  obtain ⟨-, r, -, -, hr, hr0, hr1⟩ := erfcR_default (abs_nonneg x) h
  simp only [TWO_WAD] at hr1 ⊢
  rw [F_erfc_mid _ h, hr, bind_ok]
  split_ifs
  · exact ⟨r, rfl, hr0, hr1⟩
  · exact ⟨_, chk_of_range (by simp only [TWO_WAD, MIN]; omega) (by simp only [TWO_WAD, MAX]; omega),
      by simp only [TWO_WAD]; omega, by simp only [TWO_WAD]; omega⟩

/-- Between the bounds `F_cdf` with the default configuration is neither 0 nor WAD. -/
theorem F_cdf_default_mid (h : CdfValid x mu sigma) (hz : |cdfArgumentValue Config.default x mu sigma| < ERFC_BOUND) :
    ∃ v, F_cdf Config.default x mu sigma = .ok v ∧ 0 < v ∧ v < 10 ^ 18 := by
  obtain ⟨e, he, he0, he1⟩ := F_erfc_default_mid hz
  have hhalf : Int.tdiv e 2 = e / 2 := Int.tdiv_eq_ediv_of_nonneg (by omega)
  rw [TWO_WAD_eq] at he1
  refine ⟨Int.tdiv e 2, F_cdf_of_erfc (by decide) h rfl he (by omega) (by rw [TWO_WAD_eq]; omega), ?_, ?_⟩ <;> omega

/-- `F_cdf` is WAD exactly from `negatedZ = -5.9` down (R137). -/
theorem F_cdf_default_eq_WAD_iff (h : CdfValid x mu sigma) :
    F_cdf Config.default x mu sigma = .ok (10 ^ 18) ↔ cdfArgumentValue Config.default x mu sigma ≤ -ERFC_BOUND := by
  refine ⟨fun hv => ?_, F_cdf_eq_WAD (by decide) h⟩
  by_contra hlow
  rcases le_or_gt ERFC_BOUND (cdfArgumentValue Config.default x mu sigma) with hhigh | hhigh
  · cases hv.symm.trans (F_cdf_eq_zero (by decide) h hhigh)
  · obtain ⟨v, hv', -, hlt⟩ := F_cdf_default_mid h (abs_lt.mpr ⟨not_le.mp hlow, hhigh⟩)
    cases hv.symm.trans hv'
    exact lt_irrefl _ hlt

/-- `F_cdf` is 0 exactly from `negatedZ = 5.9` up (R137). -/
theorem F_cdf_default_eq_zero_iff (h : CdfValid x mu sigma) :
    F_cdf Config.default x mu sigma = .ok 0 ↔ ERFC_BOUND ≤ cdfArgumentValue Config.default x mu sigma := by
  refine ⟨fun hv => ?_, F_cdf_eq_zero (by decide) h⟩
  by_contra hhigh
  rcases le_or_gt (cdfArgumentValue Config.default x mu sigma) (-ERFC_BOUND) with hlow | hlow
  · cases hv.symm.trans (F_cdf_eq_WAD (by decide) h hlow)
  · obtain ⟨v, hv', hgt, -⟩ := F_cdf_default_mid h (abs_lt.mpr ⟨hlow, not_le.mp hhigh⟩)
    cases hv.symm.trans hv'
    exact lt_irrefl _ hgt

/-- `negatedZ` falls as `x` grows (R132). -/
theorem cdfArgumentValue_anti {c : Config} {x' : Int} (hden : 0 < c.SQRT2 * sigma) (h : x ≤ x') :
    cdfArgumentValue c x' mu sigma ≤ cdfArgumentValue c x mu sigma := by
  rw [cdfArgumentValue_eq, cdfArgumentValue_eq, neg_le_neg_iff]
  exact Int.tdiv_le_tdiv hden (by omega)

/-- The first `x` from which `negatedZ` is at most -5.9, at mu = 0 and sigma = WAD (R137). -/
theorem cdfArgumentValue_le_iff (x : Int) :
    cdfArgumentValue Config.default x 0 (10 ^ 18) ≤ -ERFC_BOUND ↔ 8343860018001260784 ≤ x := by
  constructor
  · intro hz
    by_contra hx
    have hbelow := cdfArgumentValue_anti (c := Config.default) (mu := 0) (sigma := 10 ^ 18) (by decide)
      (show x ≤ 8343860018001260783 by omega)
    exact absurd (hbelow.trans hz) (by decide)
  · intro hx
    exact (cdfArgumentValue_anti (by decide) hx).trans (by decide)

/-- The last `x` up to which `negatedZ` is at least 5.9, at mu = 0 and sigma = WAD (R137). -/
theorem le_cdfArgumentValue_iff (x : Int) :
    ERFC_BOUND ≤ cdfArgumentValue Config.default x 0 (10 ^ 18) ↔ x ≤ -8343860018001260784 := by
  constructor
  · intro hz
    by_contra hx
    have habove := cdfArgumentValue_anti (c := Config.default) (mu := 0) (sigma := 10 ^ 18) (by decide)
      (show -8343860018001260783 ≤ x by omega)
    exact absurd (hz.trans habove) (by decide)
  · intro hx
    exact le_trans (by decide) (cdfArgumentValue_anti (by decide) hx)

end Thresholds

/-! ### CDF (R137) -/

/-- One standard deviation above the mean: the value of `F_erfc`, of which `F_cdf` is half. -/
theorem F_erfc_default_one_sigma :
    F_erfc Config.default (-707106781186547524) = .ok 1682689477208650749 := by decide +kernel

/-- The corner cases and the example of R137. -/
theorem F_cdf_default_samples :
    ∀ p ∈ ([(8343860018001260784, 0, 10 ^ 18, 10 ^ 18), (8343860018001260783, 0, 10 ^ 18, 999999999999999964),
      (-8343860018001260784, 0, 10 ^ 18, 0), (-8343860018001260783, 0, 10 ^ 18, 35), (1, 0, 1, 841344738604325374),
      (10 ^ 18, 0, 10 ^ 18, 841344738604325374), (1, 1, 1, 500000015000000225)] : List (Int × Int × Int × Int)),
      F_cdf Config.default p.1 p.2.1 p.2.2.1 = .ok p.2.2.2 := by decide +kernel

/-- A command that returned completed with `0x00` and `v` exactly if its function gave `v` (R65, R154). -/
theorem completedOk_iff {s t : State} {i : Instr} (h : exec i s = .next t)
    (hfits : ∀ v, outcome s i = .ok v → Fits v) {v : Int} : s.CompletedOk t i.dest v ↔ outcome s i = .ok v := by
  refine ⟨fun hok => ?_, fun hv => completedOk_of_exec h hv (hfits v hv)⟩
  have hstatus := status_of_exec h
  rw [hok.status] at hstatus
  match hout : outcome s i with
  | .ok u => rw [← hok.dest, (completedOk_of_exec h hout (hfits u hout)).dest]
  | .err e =>
    rw [hout] at hstatus
    exact absurd (Option.some.inj hstatus) (code_ne_codeOk e)
  | .noReturn =>
    rw [hout] at hstatus
    cases hstatus

section Cdf
variable {s t : State} {rd ra rb rc : Reg}

theorem cdf_completedOk_iff (h : exec (.cdf rd ra rb rc) s = .next t) {v : Int} :
    s.CompletedOk t rd v ↔ F_cdf s.cfgNow s.w[ra].toInt s.w[rb].toInt s.w[rc].toInt = .ok v :=
  completedOk_iff h fun _ => F_cdf_fits

theorem cdf_completedErr (h : exec (.cdf rd ra rb rc) s = .next t) {e : FnError}
    (he : F_cdf s.cfgNow s.w[ra].toInt s.w[rb].toInt s.w[rc].toInt = .err e) : s.CompletedErr t (code e) :=
  completedErr_of_exec h he

/-- Operands out of bounds complete with one of the three codes of validation (R131). -/
theorem cdf_status_of_invalid (h : exec (.cdf rd ra rb rc) s = .next t)
    (hinvalid : ¬CdfValid s.w[ra].toInt s.w[rb].toInt s.w[rc].toInt) :
    t.status = 0x01#8 ∨ t.status = 0x02#8 ∨ t.status = 0x03#8 := by
  obtain ⟨e, he, hbounds⟩ := F_cdf_invalid s.cfgNow hinvalid
  rw [(cdf_completedErr h he).status]
  rcases hbounds with rfl | rfl | rfl
  · exact .inl rfl
  · exact .inr (.inl rfl)
  · exact .inr (.inr rfl)

end Cdf

/-- A distance from the mean of one standard deviation gives one value, whatever the scale of the two (R137). -/
theorem F_cdf_default_one_sigma {x mu sigma : Int} (h : CdfValid x mu sigma) (hx : x - mu = sigma) :
    F_cdf Config.default x mu sigma = .ok 841344738604325374 := by
  obtain ⟨-, -, -, -, hsigma, -⟩ := id h
  have hz : cdfArgumentValue Config.default x mu sigma = -707106781186547524 := by
    rw [cdfArgumentValue_eq, hx, mul_comm, Int.mul_tdiv_mul_of_pos_left _ _ hsigma]
    decide
  exact F_cdf_of_erfc (by decide) h hz F_erfc_default_one_sigma (by decide) (by decide)

/-- Settles O53: a word of the eighth row is `CDF`, whose outcome is that of `F_cdf` on the three sources. -/
theorem cdfWritesResult : Obligations.CdfWritesResult := by
  refine ⟨fun c h => decode_of_rowMatches (j := 7) h, rfl, fun s rd ra rb rc => ?_⟩
  intro x mu sigma hret
  obtain ⟨t, ht⟩ := exec_returns (outcome_returns hret)
  refine ⟨t, ht, fun v => (cdf_completedOk_iff ht).mpr, cdf_completedErr ht, cdf_completedErr ht, cdf_completedErr ht,
    cdf_completedErr ht, fun he => ⟨cdf_completedErr ht he, ?min⟩, fun he => ⟨cdf_completedErr ht he, ?zero⟩,
    fun hends => cdf_status_of_invalid ht ?ends, fun hdef hvalid => ?valid, fun hdef p hp hx hmu hsigma => ?samples⟩
  case min => exact Bool.eq_false_iff.mpr fun hlaw => F_cdf_ne_minValueUnrepresentable (lawful_cfgNow hlaw) he
  case zero =>
    by_cases hlaw : s.cfg.expwad.lawful = true
    · exact .inl (SQRT2_eq_zero_of_divideByZero (c := s.cfgNow) (lawful_cfgNow hlaw) he)
    · exact .inr (Bool.eq_false_iff.mpr hlaw)
  case ends =>
    rintro ⟨hx, hx', hmu, hmu', hsigma, hsigma'⟩
    omega
  case valid =>
    have hiff {v : Int} : s.CompletedOk t rd v ↔ F_cdf Config.default x mu sigma = .ok v :=
      cfgNow_of_default hdef ▸ cdf_completedOk_iff ht
    obtain ⟨e, -, -, -, hv⟩ := F_cdf_default_value hvalid
    refine ⟨(hiff.mpr hv).status, fun hx => ?mean, fun hz => ?low, fun hz => ?high, fun hmu hsigma => ?thresholds,
      fun hsigma hx => ?unit, fun hsigma hx => ?wad⟩
    case mean => exact hiff.mpr (hx ▸ F_cdf_default_mean (hx ▸ hvalid))
    case low => exact hiff.mpr (F_cdf_eq_zero (by decide) hvalid ((cdfArgumentValue_eq ..).symm ▸ hz))
    case high => exact hiff.mpr (F_cdf_eq_WAD (by decide) hvalid ((cdfArgumentValue_eq ..).symm ▸ hz))
    case thresholds =>
      rw [hiff, hiff, F_cdf_default_eq_WAD_iff hvalid, F_cdf_default_eq_zero_iff hvalid, hmu, hsigma]
      exact ⟨cdfArgumentValue_le_iff x, le_cdfArgumentValue_iff x⟩
    case unit => exact hiff.mpr (F_cdf_default_one_sigma hvalid (hx.trans hsigma.symm))
    case wad => exact hiff.mpr (F_cdf_default_one_sigma hvalid (hx.trans hsigma.symm))
  case samples =>
    refine (cdf_completedOk_iff ht).mpr ?_
    rw [cfgNow_of_default hdef, ← F_cdf_default_samples p hp, ← hx, ← hmu, ← hsigma]

end Sys2Proof.Machine
end

section
/-! PROOFS. Proofs/Exceptions.lean: the statement on status codes (spec 60_exceptions.md): with the default
configuration, which errors each command's function can raise, and so which codes it completes with (R150, R151). -/

namespace Sys2Proof.Machine

/-- The errors R151 lists for each command, with the default configuration. -/
def defaultErrors : Instr → List FnError
  | .mulwad _ _ _ => [.arithmeticOverflow]
  | .divwad _ _ _ => [.arithmeticOverflow, .divideByZero]
  | .muldiv _ _ _ _ => [.arithmeticOverflow, .divideByZero]
  | .abs _ _ => [.minValueUnrepresentable]
  | .expw _ _ => [.arithmeticOverflow]
  | .poly _ _ => [.arithmeticOverflow]
  | .erfc _ _ => []
  | .cdf _ _ _ _ => [.xOutOfBounds, .muOutOfBounds, .sigmaOutOfBounds]

theorem F_muldiv_err_mem {a b d : Int} {e : FnError} (h : F_muldiv a b d = .err e) :
    e ∈ [FnError.arithmeticOverflow, FnError.divideByZero] := by
  rcases F_muldiv_err h with rfl | ⟨rfl, -⟩ <;> decide

theorem F_abs_err {x : Int} {e : FnError} (h : F_abs x = .err e) : e = .minValueUnrepresentable := by
  by_cases hmin : x = MIN
  · rw [F_abs, if_pos hmin] at h
    exact (FnOutcome.err.inj h).symm
  · rw [F_abs_of_ne hmin] at h
    cases h

/-- With the default configuration `F_erfc` has a value at every operand (R119). -/
theorem F_erfc_default_ne_err (x : Int) (e : FnError) : F_erfc Config.default x ≠ .err e := by
  obtain ⟨v, hv, -⟩ := F_erfc_default_range x
  simp [hv]

/-- With the default configuration `F_cdf` fails only in its validation: on valid operands it has a value (R135). -/
theorem F_cdf_default_err {x mu sigma : Int} {e : FnError} (h : F_cdf Config.default x mu sigma = .err e) :
    e = .xOutOfBounds ∨ e = .muOutOfBounds ∨ e = .sigmaOutOfBounds := by
  by_cases hvalid : CdfValid x mu sigma
  · obtain ⟨_, -, -, -, hv⟩ := F_cdf_default_value hvalid
    cases h.symm.trans hv
  · obtain ⟨e', he', hbounds⟩ := F_cdf_invalid Config.default hvalid
    cases h.symm.trans he'
    exact hbounds

section Completion
variable {s t : State} {i : Instr}

/-- With the default configuration a command's function raises no other errors than those listed (R151). -/
theorem outcome_err_mem_defaultErrors (hdef : s.cfg = Config.default) {e : FnError} (h : outcome s i = .err e) :
    e ∈ defaultErrors i := by
  cases i with
  | mulwad => exact List.mem_singleton.mpr (F_mulwad_err h)
  | divwad | muldiv => exact F_muldiv_err_mem h
  | abs => exact List.mem_singleton.mpr (F_abs_err h)
  | poly => exact List.mem_singleton.mpr (F_poly_err h)
  | expw =>
    rw [outcome, cfgNow_of_default hdef] at h
    exact List.mem_singleton.mpr (F_exp_err rfl h)
  | erfc =>
    rw [outcome, cfgNow_of_default hdef] at h
    exact absurd h (F_erfc_default_ne_err _ e)
  | cdf =>
    rw [outcome, cfgNow_of_default hdef] at h
    simpa [defaultErrors] using F_cdf_default_err h

/-- A command that returned completed with `0x00` or with the code of an error its function raised (R65, R150). -/
theorem status_codeOk_or_code (h : exec i s = .next t) :
    t.status = codeOk ∨ ∃ e, outcome s i = .err e ∧ t.status = code e := by
  have hstatus := status_of_exec h
  match hout : outcome s i with
  | .ok v => exact .inl (Option.some.inj (hstatus.symm.trans (congrArg _ hout)))
  | .err e => exact .inr ⟨e, rfl, Option.some.inj (hstatus.symm.trans (congrArg _ hout))⟩
  | .noReturn => cases hstatus.symm.trans (congrArg _ hout)

/-- With the default configuration every command completes, with `0x00` or the code of a listed error (R30, R151). -/
theorem exec_default_status (i : Instr) (hdef : s.cfg = Config.default) :
    ∃ t, exec i s = .next t ∧ t.status ∈ codeOk :: (defaultErrors i).map code := by
  have hret : s.Returns i := .inl (by rw [hdef]; rfl)
  obtain ⟨t, ht⟩ := exec_returns (outcome_returns hret)
  refine ⟨t, ht, ?_⟩
  rcases status_codeOk_or_code ht with hok | ⟨e, he, hcode⟩
  · exact List.mem_cons.mpr (.inl hok)
  · rw [hcode]
    exact List.mem_cons_of_mem _ (List.mem_map_of_mem (outcome_err_mem_defaultErrors hdef he))

end Completion

/-- Settles O28: the codes of each command are `0x00` and those of the errors listed for it. -/
theorem statusCodesByCommand : Obligations.StatusCodesByCommand := by
  intro i s hdef
  obtain ⟨t, ht, hcodes⟩ := exec_default_status i hdef
  refine ⟨t, ht, ?_⟩
  cases i <;> simpa [defaultErrors, code, codeOk] using hcodes

end Sys2Proof.Machine
end

section
/-! PROOFS. Proofs/Reset.lean: the statement on the `Reset` transaction (spec 70_reset_and_hazards.md). -/

namespace Sys2Proof.Machine

/-- After a `Reset` no register holds a value (R27, R180). -/
theorem hostReset_held (s : State) (r : Reg) : (hostReset s).held[r] = false := reset_held r

/-- A `Reset` right after a `Reset` changes nothing, whatever then stands at the port (R180). -/
theorem hostReset_hostReset_withPort (s : State) (port : List Transaction) :
    hostReset { hostReset s with port := port } = { hostReset s with port := port } := rfl

/-- Settles O15: a `Reset` puts back every field but the configuration, the port and the count of commands, and it keeps
those three, so a second one finds every field as it would leave it. -/
theorem resetTransaction : Obligations.ResetTransaction := by
  intro s rest hport
  refine ⟨hostReset { s with port := rest }, step_reset hport, hostReset_status _, hostReset_held _,
    hostReset_faulted _, hostReset_readUnheld _, hostReset_cfg _, hostReset_port _, fun rest' hrest => ?_⟩
  have hnext : (hostReset { s with port := rest }).port = .reset :: rest' := (hostReset_port _).trans hrest
  rw [step_reset hnext, hostReset_hostReset_withPort]

end Sys2Proof.Machine
end
